-- ==== Sys2Proof/Word.lean ====
section
/-! DEFINITION. The data types of the core (00_scope R12 to R15): bytes, byte strings and blocks. -/

namespace Sys2Proof

/-- A byte is 8 bits (00_scope R12). -/
abbrev Byte := BitVec 8

/-- A byte string; its length is a natural number, index 0 is the first byte (00_scope R12). -/
abbrev ByteString := List Byte

/-- A block: 16 bytes, and at the same time the 128-bit number `int(b)` (00_scope R13, R14). -/
abbrev Block := BitVec 128

/-- `zeros(n)`: `n` bytes of value 0x00 (00_scope R12). -/
abbrev zeros (n : Nat) : ByteString := List.replicate n 0#8

end Sys2Proof
end

