-- ==== Sys2Proof/Machine/Bytes.lean ====
section
/-! DEFINITION. Byte order: byte strings against bit vectors (00_scope R12 to R15, 20_memory R52 to R54). -/

namespace Sys2Proof.Machine

/-- `int` (00_scope R13), for a byte string of any length: the first byte is the most significant. -/
def natOfBytes (s : ByteString) : Nat := s.foldl (fun n b => n * 256 + b.toNat) 0

/-- The first `n` bytes of a left-aligned bit vector: byte `i` is `v[w-1-8*i : w-8-8*i]`, for a block
`v[127-8*i : 120-8*i]` (00_scope R14, 20_memory R53). -/
def topBytes (n : Nat) {w : Nat} (v : BitVec w) : ByteString :=
  (List.range n).map fun i => v.extractLsb' (w - 8 * (i + 1)) 8

/-- The bytes of `s` left-aligned in `w` bits, the unused low bits zero (20_memory R53; 10_state R24). Used only where
`s` fits, `8 * len(s) <= w` (log 11); for 16 bytes and `w = 128` it is `int` (00_scope R13). -/
def packBytes (w : Nat) (s : ByteString) : BitVec w := BitVec.ofNat w (natOfBytes s * 2 ^ (w - 8 * s.length))

/-- `a xor b` on byte strings, bytewise (00_scope R15). -/
def xorBytes (a b : ByteString) : ByteString := List.zipWith (· ^^^ ·) a b

/-- `s[a:b]`: bytes `a` to `b-1` (00_scope R12). -/
def slice (s : ByteString) (a b : Nat) : ByteString := (s.take b).drop a

end Sys2Proof.Machine
end

