-- ==== Sys2Proof/Machine/Doubler.lean ====
section
/-! DEFINITION. The GF(2^128) doubler (40_doubler R100). -/

namespace Sys2Proof.Machine

/-- `dbl(b)`: shift the big-endian 128-bit number left by one; if the bit shifted out was 1, xor 0x87 into the
least-significant byte (40_doubler R100). -/
def dbl (b : Block) : Block := if b.msb then (b <<< 1) ^^^ 0x87#128 else b <<< 1

end Sys2Proof.Machine
end

