-- ==== Sys2Proof/Machine/Cmac.lean ====
section
/-! DEFINITION. The CMAC processor (41_cmac). The functions take `ek`, the block cipher under one key (`E(k, ·)`), so
they are defined for every cipher and every key. -/

namespace Sys2Proof.Machine

/-- `pad(m)`: `m`, the byte 0x80, then zeros up to 16 bytes (41_cmac R110). It has no value for 16 bytes or more
(93_implementation_defined U8), so it asks for the proof. -/
def pad (m : ByteString) (_fits : m.length ≤ 15) : Block :=
  packBytes 128 (m ++ [0x80#8] ++ zeros (15 - m.length))

/-- `subkeys(k)`, `(K1, K2)` (41_cmac R112). -/
def subkeys (ek : Block → Block) : Block × Block := (dbl (ek 0), dbl (dbl (ek 0)))

/-- Block `j` of a byte string, `M[16*j : 16*j+16]` (41_cmac R113). -/
def blockAt (m : ByteString) (j : Nat) : Block := packBytes 128 (slice m (16 * j) (16 * j + 16))

/-- The blocks `B[0..q-1]` of 41_cmac R113: the last one carries `K1` when the length is a nonzero multiple of 16, and
is padded and carries `K2` otherwise. -/
def cmacBlocks (k1 k2 : Block) (m : ByteString) : List Block :=
  if 0 < m.length ∧ m.length % 16 = 0 then
    let q := m.length / 16
    (List.range (q - 1)).map (blockAt m) ++ [blockAt m (q - 1) ^^^ k1]
  else
    let q := m.length / 16 + 1
    (List.range (q - 1)).map (blockAt m) ++
      [pad (m.drop (16 * (q - 1))) (by rw [List.length_drop]; omega) ^^^ k2]

/-- The CBC chain of 41_cmac R113, step 3: the running state starts at ZERO. -/
def cbcChain (ek : Block → Block) (bs : List Block) : Block := bs.foldl (fun x b => ek (x ^^^ b)) 0

/-- `cmac` with the two subkeys given: how the core evaluates it, with the cached `k1`, `k2` (41_cmac R112, R113). -/
def cmacWith (ek : Block → Block) (k1 k2 : Block) (m : ByteString) : Block := cbcChain ek (cmacBlocks k1 k2 m)

/-- `cmac(k, M)`: the document's function, with `(K1, K2) = subkeys(k)` (41_cmac R113). -/
def cmac (ek : Block → Block) (m : ByteString) : Block := cmacWith ek (subkeys ek).1 (subkeys ek).2 m

/-- `cmac_absorb(x, w)` (41_cmac R115). -/
def cmacAbsorb (ek : Block → Block) (x w : Block) : Block := ek (x ^^^ w)

/-- `cmac_finish(x, w, nb)`: the first `nb` bytes of `w` are valid, the rest ignored (41_cmac R116). -/
def cmacFinish (ek : Block → Block) (k1 k2 x w : Block) (nb : Fin 17) : Block :=
  if h : nb.val = 16 then ek (x ^^^ w ^^^ k1)
  else ek (x ^^^ pad (topBytes nb.val w) (by rw [topBytes, List.length_map, List.length_range]; omega) ^^^ k2)

end Sys2Proof.Machine
end

