-- ==== Sys2Proof/Config.lean ====
section
/-! DEFINITION. What is fixed for one instance of the core (00_scope R6): the block cipher `E` and the buffer
capacity `BUF_CAP`. The meanings take a `Config`; the machine runs at `Config.chip`, of which nothing is known. -/

namespace Sys2Proof

/-- The implementation parameters of 00_scope R6.
`E key block` is the block cipher under a key of 16, 24 or 32 bytes; its first argument `ksize` in R6 is the
length of the key, as in the shorthand `E(k, b)` of R16. `E` is total and pure (R207, D22: no primitive failure).
`capCode` codes the capacity: R6 asks for a multiple of 16 between 32 and 2^28, see `bufCap`. -/
structure Config where
  E : ByteString → Block → Block
  capCode : Fin 16777215
  deriving Inhabited

/-- `BUF_CAP` in bytes. As `capCode` runs through its 2^24 - 1 values this takes exactly the multiples of 16
from 32 to 2^28 (00_scope R6, D13). -/
def Config.bufCap (cfg : Config) : Nat := 16 * (cfg.capCode.val + 2)

/-- The parameters of the core the machine is: OPEN in the spec (00_scope R6), so a constant with no body.
(Log 4 and log 5.) -/
opaque Config.chip : Config

end Sys2Proof
end

