-- ==== Sys2Proof/Syntax.lean ====
section
/-! DEFINITION. The eleven commands (30_encoding R76), one constructor per row of spec/opcode_table.json.
A command that ignores its `data` word (R70) carries none. -/

namespace Sys2Proof

inductive Instr where
  /-- NOP (45_commands_key R160). -/
  | nop
  /-- ZEROIZE (45_commands_key R161). -/
  | zeroize
  /-- STATRD (45_commands_key R164). -/
  | statrd
  /-- KEYWR: key-buffer word `idx`, 0 to 3 (45_commands_key R162). -/
  | keywr (idx : Fin 4) (data : Block)
  /-- KEYINIT: key length in bytes, 0 to 255 (45_commands_key R163). -/
  | keyinit (klen : Fin 256)
  /-- BEGIN (46_commands_transaction R170). -/
  | begin
  /-- ADPUSH: `nbytes` valid bytes, 0 to 16, of the beat `data` (46_commands_transaction R171). -/
  | adpush (nbytes : Fin 17) (last : Bool) (data : Block)
  /-- MSGPUSH: `nbytes` valid bytes of the beat `data` (46_commands_transaction R172). -/
  | msgpush (nbytes : Fin 17) (data : Block)
  /-- ENCRYPT (46_commands_transaction R173). -/
  | encrypt
  /-- DECRYPT (46_commands_transaction R174). -/
  | decrypt
  /-- OUTRD: block index, 24 bits (46_commands_transaction R175). -/
  | outrd (blk : Fin 16777216)
  deriving DecidableEq, Repr

end Sys2Proof
end

