-- ==== Sys2Proof/WellFormed.lean ====
section
/-! DEFINITION. Which terms of `Instr` are commands: the field constraints of 30_encoding R76 and R77 that the
types of the fields do not already say. -/

namespace Sys2Proof

/-- The field constraint of the command's row in the opcode map (30_encoding R76). -/
def Instr.wellFormed : Instr → Bool
  | .nop => true
  | .zeroize => true
  | .statrd => true
  | .keywr _ _ => true
  | .keyinit _ => true
  | .begin => true
  | .adpush nbytes last _ => last || nbytes == 16
  | .msgpush nbytes _ => decide (1 ≤ nbytes.val)
  | .encrypt => true
  | .decrypt => true
  | .outrd _ => true

end Sys2Proof
end

