-- ==== Sys2Proof/Decode.lean ====
section
/-! DEFINITION. The command record, the decoder and the encoder (30_encoding R70 to R78, R91). -/

namespace Sys2Proof

/-- The 160-bit command record `{ctrl[31:0], data[127:0]}` (30_encoding R70). -/
abbrev CommandRecord := BitVec 160

/-- `ctrl = cmd[159:128]` (30_encoding R70). -/
def ctrlOf (c : CommandRecord) : BitVec 32 := c.extractLsb' 128 32

/-- `data = cmd[127:0]` (30_encoding R70). -/
def dataOf (c : CommandRecord) : Block := c.extractLsb' 0 128

/-- `{ctrl, data}` (30_encoding R70). -/
def mkRecord (ctrl : BitVec 32) (data : Block) : CommandRecord := ctrl ++ data

/-- Why a control word is illegal: the five cases of 30_encoding R77, in its order. The host sees only
`E_ILLEGAL`; the name is the decoder's. -/
inductive DecodeError where
  /-- Case 1: `op` is a reserved opcode. -/
  | reservedOpcode
  /-- Case 2: a reserved bit of the format is 1. -/
  | reservedBit
  /-- Case 3: ADPUSH with `nbytes > 16`. -/
  | adpushLength
  /-- Case 4: ADPUSH with `last = 0` and `nbytes != 16`. -/
  | adpushPartialNotLast
  /-- Case 5: MSGPUSH with `nbytes = 0` or `nbytes > 16`. -/
  | msgpushLength
  deriving DecidableEq, Repr

/-- Format N: `ctrl[23:0]` must be 0 (30_encoding R73). -/
def decodeN (ctrl : BitVec 32) (i : Instr) : Except DecodeError Instr :=
  if ctrl.extractLsb' 0 24 = 0 then .ok i else .error .reservedBit

/-- Format K: `idx = ctrl[1:0]`, `ctrl[23:2]` must be 0 (30_encoding R73). -/
def decodeK (ctrl : BitVec 32) (data : Block) : Except DecodeError Instr :=
  if ctrl.extractLsb' 2 22 = 0 then .ok (.keywr (ctrl.extractLsb' 0 2).toFin data) else .error .reservedBit

/-- Format L: `klen = ctrl[7:0]`, `ctrl[23:8]` must be 0 (30_encoding R73). -/
def decodeL (ctrl : BitVec 32) : Except DecodeError Instr :=
  if ctrl.extractLsb' 8 16 = 0 then .ok (.keyinit (ctrl.extractLsb' 0 8).toFin) else .error .reservedBit

/-- Format B: `nbytes = ctrl[4:0]`, `last = ctrl[8]`, `ctrl[7:5]` and `ctrl[23:9]` must be 0; `nbytes <= 16`, and a
non-final beat is full (30_encoding R73, R77 cases 2 to 4). -/
def decodeB (ctrl : BitVec 32) (data : Block) : Except DecodeError Instr :=
  let n := (ctrl.extractLsb' 0 5).toNat
  let last := ctrl.getLsbD 8
  if ctrl.extractLsb' 9 15 = 0 ∧ ctrl.extractLsb' 5 3 = 0 then
    if h : n < 17 then
      if last = true ∨ n = 16 then .ok (.adpush ⟨n, h⟩ last data) else .error .adpushPartialNotLast
    else .error .adpushLength
  else .error .reservedBit

/-- Format M: `nbytes = ctrl[4:0]`, `ctrl[23:5]` must be 0; `1 <= nbytes <= 16` (30_encoding R73, R77 cases 2, 5). -/
def decodeM (ctrl : BitVec 32) (data : Block) : Except DecodeError Instr :=
  let n := (ctrl.extractLsb' 0 5).toNat
  if ctrl.extractLsb' 5 19 = 0 then
    if h : n < 17 then
      if 1 ≤ n then .ok (.msgpush ⟨n, h⟩ data) else .error .msgpushLength
    else .error .msgpushLength
  else .error .reservedBit

/-- Format R: `blk = ctrl[23:0]`, no reserved bit (30_encoding R73). -/
def decodeR (ctrl : BitVec 32) : Except DecodeError Instr := .ok (.outrd (ctrl.extractLsb' 0 24).toFin)

/-- The `case op of` of the decoder (30_encoding R78): the format of each opcode. -/
def decodeOp (op : Nat) (ctrl : BitVec 32) (data : Block) : Except DecodeError Instr :=
  match op with
  | 0x00 => decodeN ctrl .nop
  | 0x01 => decodeN ctrl .zeroize
  | 0x02 => decodeN ctrl .statrd
  | 0x10 => decodeK ctrl data
  | 0x11 => decodeL ctrl
  | 0x20 => decodeN ctrl .begin
  | 0x21 => decodeB ctrl data
  | 0x22 => decodeM ctrl data
  | 0x30 => decodeN ctrl .encrypt
  | 0x31 => decodeN ctrl .decrypt
  | 0x40 => decodeR ctrl
  | _ => .error .reservedOpcode

/-- The decoder (30_encoding R78), total on all control words, `op = ctrl[31:24]`. Whether a word is legal does not
depend on `data`; `data` only becomes the operand of KEYWR, ADPUSH and MSGPUSH (R74). -/
def decode (ctrl : BitVec 32) (data : Block) : Except DecodeError Instr :=
  decodeOp (ctrl.extractLsb' 24 8).toNat ctrl data

/-- The decoder on a whole command record (30_encoding R70, R78). -/
def decodeRecord (c : CommandRecord) : Except DecodeError Instr := decode (ctrlOf c) (dataOf c)

/-- The opcode of each command (30_encoding R76). -/
def opcodeByte : Instr → BitVec 8
  | .nop => 0x00#8
  | .zeroize => 0x01#8
  | .statrd => 0x02#8
  | .keywr _ _ => 0x10#8
  | .keyinit _ => 0x11#8
  | .begin => 0x20#8
  | .adpush _ _ _ => 0x21#8
  | .msgpush _ _ => 0x22#8
  | .encrypt => 0x30#8
  | .decrypt => 0x31#8
  | .outrd _ => 0x40#8

/-- `arg`, per format (30_encoding R91). -/
def argField : Instr → BitVec 24
  | .nop => 0
  | .zeroize => 0
  | .statrd => 0
  | .keywr idx _ => BitVec.ofNat 24 idx.val
  | .keyinit klen => BitVec.ofNat 24 klen.val
  | .begin => 0
  | .adpush nbytes last _ => (if last then 0x100#24 else 0#24) ||| BitVec.ofNat 24 nbytes.val
  | .msgpush nbytes _ => BitVec.ofNat 24 nbytes.val
  | .encrypt => 0
  | .decrypt => 0
  | .outrd blk => BitVec.ofNat 24 blk.val

/-- The `data` word: the operand, or 0 where the command ignores it (30_encoding R90). -/
def dataField : Instr → Block
  | .keywr _ data => data
  | .adpush _ _ data => data
  | .msgpush _ data => data
  | .nop => 0
  | .zeroize => 0
  | .statrd => 0
  | .keyinit _ => 0
  | .begin => 0
  | .encrypt => 0
  | .decrypt => 0
  | .outrd _ => 0

/-- `ctrl = (op << 24) | arg` (30_encoding R91). -/
def encodeCtrl (i : Instr) : BitVec 32 := opcodeByte i ++ argField i

/-- The command record of a command (30_encoding R70, R91). -/
def encode (i : Instr) : CommandRecord := mkRecord (encodeCtrl i) (dataField i)

/-- The control word of a row of spec/opcode_table.json: bits 31..0 of the table's number. -/
def tableCtrl (nbits w : Nat) : BitVec 32 := BitVec.ofNat 32 (w % 2 ^ nbits)

/-- The `data` word that follows it in the table's numbering: bits 159..32, zero where the row gives none. -/
def tableData (nbits w : Nat) : Block := BitVec.ofNat 128 ((w % 2 ^ nbits) / 2 ^ 32)

/-- The instruction the decoder reads from a word numbered as spec/opcode_table.json numbers it: the table's 32 bits
are `ctrl` (30_encoding R76), the operand word `data` follows. (Log 10.) -/
def decodeTableWord (nbits w : Nat) : Option Instr :=
  match decode (tableCtrl nbits w) (tableData nbits w) with
  | .ok i => some i
  | .error _ => none

end Sys2Proof
end

