-- ==== Sys2Proof/Machine/State.lean ====
section
/-! DEFINITION. The state of the core (10_state R20), its reset value (70_reset_and_hazards R230), the records that
pass between host and core, and the reasons a step can stop. -/

namespace Sys2Proof.Machine

/-- The sequencing state (10_state R22). -/
inductive Phase where
  /-- 0: no key installed. -/
  | unkeyed
  /-- 1: a key is installed, no transaction is open. -/
  | ready
  /-- 2: a transaction is open. -/
  | collect
  /-- 3: a transaction ended successfully, `obuf` holds its result. -/
  | done
  deriving DecidableEq, Repr

/-- The installed half-key size (10_state R25). -/
inductive KSel where
  /-- 0: no key installed. -/
  | none
  /-- 1: halves of 16 bytes. -/
  | k16
  /-- 2: halves of 24 bytes. -/
  | k24
  /-- 3: halves of 32 bytes. -/
  | k32
  deriving DecidableEq, Repr

/-- The response codes (60_exceptions R200). Codes 7 to 15 are never produced. -/
inductive RespCode where
  /-- 0: the command completed. -/
  | ok
  /-- 1, E_CONSTRUCT, `ConstructionError` (R201). -/
  | construct
  /-- 2, E_ENVELOPE, `InvalidEnvelope` (R202). -/
  | envelope
  /-- 3, E_AUTH, `AuthenticationError` (R203). -/
  | auth
  /-- 4, E_PROTO (R204). -/
  | proto
  /-- 5, E_OVERFLOW (R206). -/
  | overflow
  /-- 6, E_ILLEGAL (R205). -/
  | illegal
  deriving DecidableEq, Repr

/-- The response record `{rc[3:0], rdata[127:0]}` (30_encoding R72). -/
structure Response where
  rc : RespCode
  rdata : Block
  deriving DecidableEq, Repr

/-- What the host can do between two steps: issue a command (00_scope R8, R9) or raise reset
(70_reset_and_hazards R231). -/
inductive HostEvent where
  | command (record : CommandRecord)
  | reset
  deriving DecidableEq, Repr

/-- The state. The fields down to `err` are the record of 10_state R20, "Nothing else is state"; `ilen` and `olen` are
the lengths of `ibuf` and `obuf`. `inbox` and `rsps` are the model's own: the events the host has yet to issue, first
one first (log 1), and the responses given so far, oldest first (log 3). -/
structure State where
  phase : Phase
  ksel : KSel
  kw : Vector Block 4
  kwValid : BitVec 4
  macKey : BitVec 256
  ctrKey : BitVec 256
  k1 : Block
  k2 : Block
  d : Block
  cmacX : Block
  adOpen : Bool
  msgClosed : Bool
  ibuf : ByteString
  obuf : ByteString
  err : RespCode
  inbox : List HostEvent
  rsps : List Response
  deriving DecidableEq, Repr

/-- The state after reset (70_reset_and_hazards R230), with no event pending and no response given. -/
def State.reset : State where
  phase := .unkeyed
  ksel := .none
  kw := #v[0, 0, 0, 0]
  kwValid := 0
  macKey := 0
  ctrKey := 0
  k1 := 0
  k2 := 0
  d := 0
  cmacX := 0
  adOpen := false
  msgClosed := false
  ibuf := []
  obuf := []
  err := .ok
  inbox := []
  rsps := []

/-- Faults: there is none. Every command responds (30_encoding R72) and every failure of a command is a response with
the abort of 60_exceptions R210, a next state; nothing in the spec stops the core. Nobody raises a fault, so the
question of safe or unsafe does not arise. -/
inductive Fault where
  deriving DecidableEq, Repr

/-- Refusals. -/
inductive Refusal where
  /-- An arm of `exec` with no meaning yet. No arm raises it: all eleven commands have their meaning. Safe. -/
  | notModelled (mnemonic : String)
  deriving DecidableEq, Repr

/-- What a step and a meaning answer. -/
abbrev Result := Host.Outcome State Fault Refusal

end Sys2Proof.Machine
end

