-- ==== Sys2Proof/Machine/Ops.lean ====
section
/-! DEFINITION. The named operations every meaning is written with: the buffers, the updates of the state, the
response, the fail-closed abort (the core's exception entry, 60_exceptions R210), the phase check, and the reset event. -/

namespace Sys2Proof.Machine

/-! ## The two buffers (20_memory R50)

A buffer is a byte string of exactly `ilen` or `olen` bytes: bytes at and beyond the length are not state
(10_state R30, R31), so no unlisted address has a value (log 8). -/

/-- `MemRead(space, addr, n)` (00_scope R16). -/
def memRead (buf : ByteString) (addr n : Nat) : ByteString := slice buf addr (addr + n)

/-- `MemWrite(space, addr, n, v)` (00_scope R16); used only to append, `addr` = current length. -/
def memWrite (buf : ByteString) (addr : Nat) (v : ByteString) : ByteString :=
  buf.take addr ++ v ++ buf.drop (addr + v.length)

/-- The byte of a buffer at an address; none at and beyond the length. -/
def memByte (buf : ByteString) (addr : Nat) : Option Byte := buf[addr]?

/-- The buffer as (address, byte) cells, addresses strictly rising, every address below the length listed. -/
def memCells (buf : ByteString) : List Host.Cell := buf.zipIdx.map fun p => (p.2, p.1)

/-- The form of the memories: each buffer within `BUF_CAP`, byte addresses below it (20_memory R50, 10_state R36 (g)). -/
def Memory.wf (cfg : Config) (s : State) : Bool :=
  decide (s.ibuf.length ≤ cfg.bufCap) && decide (s.obuf.length ≤ cfg.bufCap)

/-- `ilen` (10_state R20). -/
abbrev State.ilen (s : State) : Nat := s.ibuf.length

/-- `olen` (10_state R20). -/
abbrev State.olen (s : State) : Nat := s.obuf.length

/-! ## Updates of the state -/

/-- Every state element of 10_state R20 at its reset value; the host's events and the responses stand
(45_commands_key R161, 70_reset_and_hazards R231). -/
def State.dropInstance (s : State) : State := { State.reset with inbox := s.inbox, rsps := s.rsps }

/-- The state change of `fail(code)`: staged key, chain, buffers and flags destroyed, the installed key kept
(60_exceptions R210). -/
def State.abort (s : State) (code : RespCode) : State :=
  { s with
    kw := #v[0, 0, 0, 0], kwValid := 0, d := 0, cmacX := 0, adOpen := false, msgClosed := false,
    ibuf := [], obuf := [], phase := if s.ksel = .none then .unkeyed else .ready, err := code }

/-- `kw[idx] <- data; kw_valid[idx] <- 1` (45_commands_key R162). -/
def State.writeKeyWord (s : State) (idx : Fin 4) (data : Block) : State :=
  { s with kw := s.kw.set idx.val data, kwValid := s.kwValid ||| (1#4 <<< idx.val) }

/-- The writes of a successful KEYINIT (45_commands_key R163): the keys left-aligned in 256 bits (10_state R24), the
subkeys, the staging copy destroyed, phase READY. -/
def State.installKey (s : State) (sel : KSel) (mac ctr : ByteString) (subs : Block × Block) : State :=
  { s with
    macKey := packBytes 256 mac, ctrKey := packBytes 256 ctr, ksel := sel, k1 := subs.1, k2 := subs.2,
    kw := #v[0, 0, 0, 0], kwValid := 0, phase := .ready, err := .ok }

/-- The writes of BEGIN (46_commands_transaction R170). -/
def State.openTransaction (s : State) (d0 : Block) : State :=
  { s with
    d := d0, cmacX := 0, adOpen := false, msgClosed := false, ibuf := [], obuf := [], err := .ok, phase := .collect }

/-- The writes of a non-final ADPUSH beat (46_commands_transaction R171). -/
def State.absorbBeat (s : State) (x : Block) : State := { s with cmacX := x, adOpen := true }

/-- The writes of a final ADPUSH beat (46_commands_transaction R171). -/
def State.closeComponent (s : State) (d' : Block) : State := { s with d := d', cmacX := 0, adOpen := false }

/-- The writes of MSGPUSH: append at byte address `ilen`; a partial beat closes the message
(46_commands_transaction R172). -/
def State.appendMessage (s : State) (v : ByteString) (partialBeat : Bool) : State :=
  { s with ibuf := memWrite s.ibuf s.ilen v, msgClosed := s.msgClosed || partialBeat }

/-- The writes of a successful ENCRYPT or DECRYPT with result `out` (46_commands_transaction R173, R174). -/
def State.finish (s : State) (out : ByteString) : State :=
  { s with obuf := out, ibuf := [], d := 0, cmacX := 0, msgClosed := false, phase := .done }

/-- The response is given (30_encoding R72). -/
def State.emit (s : State) (rc : RespCode) (rdata : Block) : State := { s with rsps := s.rsps ++ [⟨rc, rdata⟩] }

/-- The host's next event is taken: the record the host presents at this step (20_memory R66). -/
def State.withInbox (s : State) (events : List HostEvent) : State := { s with inbox := events }

/-! ## Ending a command -/

/-- `respond(OK, rdata)` in state `s` (00_scope R16, 30_encoding R72). -/
def respond (rdata : Block) (s : State) : Result := .next (s.emit .ok rdata)

/-- `fail(code)`: the fail-closed abort and its response, the core's exception entry (60_exceptions R210). There is no
saved pc, no vector and no handler; the return needs no operation, for the state after it accepts commands (R214). -/
def fail (code : RespCode) (s : State) : Result := .next ((s.abort code).emit code 0)

/-- The phase check of `exec`: `if phase not in legal(c) then raise E_PROTO` (45_commands_key R165). -/
def requirePhase (legal : List Phase) (s : State) (body : Result) : Result :=
  if s.phase ∈ legal then body else fail .proto s

/-- A check of a command's own: `if bad then raise code` (45_commands_key R165, 60_exceptions R211). -/
def raiseIf (bad : Bool) (code : RespCode) (s : State) (body : Result) : Result :=
  if bad then fail code s else body

/-! ## Events -/

/-- The reset event: the constant state of 70_reset_and_hazards R230; no response (R231). -/
def resetEvent (s : State) : Result := .next s.dropInstance

/-- The host's next event and the state that no longer holds it. -/
def takeEvent (s : State) : Option (HostEvent × State) :=
  match s.inbox with
  | [] => none
  | e :: rest => some (e, s.withInbox rest)

end Sys2Proof.Machine
end

