-- ==== Sys2Proof/Machine/Operands.lean ====
section
/-! DEFINITION. The operand forms of the commands (30_encoding R74, 20_memory R53, R57, R59): beats, key halves, the
envelope's parts, result blocks; and the block cipher under the installed keys. -/

namespace Sys2Proof.Machine

/-- `ksize` in bytes (10_state R25). -/
def KSel.ksize : KSel → Nat
  | .none => 0
  | .k16 => 16
  | .k24 => 24
  | .k32 => 32

/-- `ksel <- h div 8 - 1` (45_commands_key R163), for the three half sizes 16, 24, 32. -/
def KSel.ofHalf (h : Nat) : KSel :=
  match h / 8 - 1 with
  | 1 => .k16
  | 2 => .k24
  | 3 => .k32
  | _ => .none

/-- `E(mac_key, ·)`: the first `ksize` bytes of the register (10_state R24). -/
def macE (cfg : Config) (s : State) : Block → Block := cfg.E (topBytes s.ksel.ksize s.macKey)

/-- `E(ctr_key, ·)` (10_state R24). -/
def ctrE (cfg : Config) (s : State) : Block → Block := cfg.E (topBytes s.ksel.ksize s.ctrKey)

/-- The valid bytes of a beat: the first `nbytes`, whatever the rest hold (20_memory R53). -/
def beatBytes (nbytes : Fin 17) (data : Block) : ByteString := topBytes nbytes.val data

/-- `kw[0] ++ kw[1] ++ kw[2] ++ kw[3]` (10_state R23). -/
def stagedBytes (s : State) : ByteString :=
  topBytes 16 s.kw[0] ++ topBytes 16 s.kw[1] ++ topBytes 16 s.kw[2] ++ topBytes 16 s.kw[3]

/-- `key = (kw[0] ++ ... ++ kw[3])[0 : klen]` (45_commands_key R163). -/
def stagedKey (s : State) (klen : Nat) : ByteString := slice (stagedBytes s) 0 klen

/-- The MAC half, `key[0 : klen/2]` (20_memory R57). -/
def macHalf (s : State) (klen : Nat) : ByteString := slice (stagedKey s klen) 0 (klen / 2)

/-- The CTR half, `key[klen/2 : klen]` (20_memory R57). -/
def ctrHalf (s : State) (klen : Nat) : ByteString := slice (stagedKey s klen) (klen / 2) klen

/-- The supported key lengths (45_commands_key R163). -/
def supportedKlen (klen : Nat) : Bool := klen == 32 || klen == 48 || klen == 64

/-- Some word the length needs was never written: `exists i < klen div 16 with kw_valid[i] = 0` (45_commands_key R163). -/
def keyAbsent (s : State) (klen : Nat) : Bool := (List.range (klen / 16)).any fun i => !s.kwValid.getLsbD i

/-- The SIV part of the envelope, `ibuf[0:16]` as a block (20_memory R56). -/
def envelopeSiv (ibuf : ByteString) : Block := packBytes 128 (memRead ibuf 0 16)

/-- The ciphertext part of the envelope, `ibuf[16:]` (20_memory R56). -/
def envelopeCt (ibuf : ByteString) : ByteString := memRead ibuf 16 (ibuf.length - 16)

/-- `siv ++ ct` (20_memory R56). -/
def mkEnvelope (siv : Block) (ct : ByteString) : ByteString := topBytes 16 siv ++ ct

/-- The result block at byte address `16*blk`, left-aligned and zero-filled (46_commands_transaction R175). -/
def resultBlock (obuf : ByteString) (blk : Nat) : Block :=
  packBytes 128 (memRead obuf (16 * blk) (min 16 (obuf.length - 16 * blk)))

end Sys2Proof.Machine
end

