-- ==== Sys2Proof/Machine/Flags.lean ====
section
/-! DEFINITION. The codes of the named values and the STATUS word (10_state R22, R25, R33; 60_exceptions R200). The
core has no arithmetic condition code (10_state R34). -/

namespace Sys2Proof.Machine

/-- The value of `phase` (10_state R22). -/
def Phase.code : Phase → BitVec 2
  | .unkeyed => 0
  | .ready => 1
  | .collect => 2
  | .done => 3

/-- The value of `ksel` (10_state R25). -/
def KSel.code : KSel → BitVec 2
  | .none => 0
  | .k16 => 1
  | .k24 => 2
  | .k32 => 3

/-- The value of `rc` and of `err` (60_exceptions R200). -/
def RespCode.code : RespCode → BitVec 4
  | .ok => 0
  | .construct => 1
  | .envelope => 2
  | .auth => 3
  | .proto => 4
  | .overflow => 5
  | .illegal => 6

/-- The 132-bit response record `{rc[3:0], rdata[127:0]}` (30_encoding R72). -/
def Response.bits (r : Response) : BitVec 132 := r.rc.code ++ r.rdata

/-- `key_valid`, derived: `ksel != 0` (10_state R25; 90_conflicts C11). -/
def keyValid (s : State) : Bool := s.ksel != .none

/-- STATUS, 128 bits, from bit 127 down (10_state R33). -/
def statusWord (s : State) : Block :=
  0#32 ++ BitVec.ofNat 32 s.olen ++ BitVec.ofNat 32 s.ilen ++ 0#16 ++ s.kwValid ++ s.err.code ++ 0#1 ++
    BitVec.ofBool s.msgClosed ++ BitVec.ofBool s.adOpen ++ s.ksel.code ++ BitVec.ofBool (keyValid s) ++ s.phase.code

end Sys2Proof.Machine
end

