-- ==== Sys2Proof/Machine/Key.lean ====
section
/-! DEFINITION. The key commands KEYWR and KEYINIT (45_commands_key R162, R163). -/

namespace Sys2Proof.Machine

/-- KEYWR: write one key-buffer word (45_commands_key R162). -/
def execKeywr (idx : Fin 4) (data : Block) (s : State) : Result :=
  requirePhase [.unkeyed] s (respond 0 (s.writeKeyWord idx data))

/-- KEYINIT on a core with parameters `cfg`: validate the key, split it, derive the subkeys (45_commands_key R163). -/
def execKeyinitAt (cfg : Config) (klen : Fin 256) (s : State) : Result :=
  requirePhase [.unkeyed] s <|
    raiseIf (!supportedKlen klen.val) .construct s <|
    raiseIf (keyAbsent s klen.val) .construct s <|
    respond 0 (s.installKey (KSel.ofHalf (klen.val / 2)) (macHalf s klen.val) (ctrHalf s klen.val)
      (subkeys (cfg.E (macHalf s klen.val))))

/-- KEYINIT (45_commands_key R163). -/
def execKeyinit (klen : Fin 256) (s : State) : Result := execKeyinitAt Config.chip klen s

end Sys2Proof.Machine
end

