-- ==== Sys2Proof/Machine/System.lean ====
section
/-! DEFINITION. The system commands NOP, ZEROIZE and STATRD (45_commands_key R160, R161, R164). -/

namespace Sys2Proof.Machine

/-- NOP: respond OK, no state changes (45_commands_key R160). -/
def execNop (s : State) : Result :=
  requirePhase [.unkeyed, .ready, .collect, .done] s (respond 0 s)

/-- ZEROIZE: every state element to its reset value (45_commands_key R161). -/
def execZeroize (s : State) : Result :=
  requirePhase [.unkeyed, .ready, .collect, .done] s (respond 0 s.dropInstance)

/-- STATRD: respond STATUS, no state changes (45_commands_key R164). -/
def execStatrd (s : State) : Result :=
  requirePhase [.unkeyed, .ready, .collect, .done] s (respond (statusWord s) s)

end Sys2Proof.Machine
end

