-- ==== Sys2Proof/Machine/Comparator.lean ====
section
/-! DEFINITION. The constant-time byte comparator (44_comparator R150), as a function: the or of all sixteen bytewise
xors, tested at the end. Its timing is no part of the model (70_reset_and_hazards R243). -/

namespace Sys2Proof.Machine

/-- The accumulator after all sixteen bytes (44_comparator R150). -/
def ctAcc (a b : Block) : Byte := (xorBytes (topBytes 16 a) (topBytes 16 b)).foldl (· ||| ·) 0

/-- `ct_eq(a, b)` (44_comparator R150). -/
def ctEq (a b : Block) : Bool := ctAcc a b == 0

end Sys2Proof.Machine
end

