-- ==== Sys2Proof/Machine/S2v.lean ====
section
/-! DEFINITION. The S2V vector-MAC chain (42_s2v). `ek` is the block cipher under the MAC key. -/

namespace Sys2Proof.Machine

/-- `s2v_init() = cmac(mac_key, ZERO)`: the CMAC of one all-zero block, not of the empty string (42_s2v R130). -/
def s2vInitWith (ek : Block → Block) (k1 k2 : Block) : Block := cmacWith ek k1 k2 (zeros 16)

/-- `s2v_step(D, t) = dbl(D) xor t` (42_s2v R131). -/
def s2vStep (d t : Block) : Block := dbl d ^^^ t

/-- `xorend(M, D)`: `D` xored into the last 16 bytes of `M` (42_s2v R132). It has no value for fewer than 16 bytes
(93_implementation_defined U9), so it asks for the proof. -/
def xorend (m : ByteString) (d : Block) (_long : 16 ≤ m.length) : ByteString :=
  m.take (m.length - 16) ++ xorBytes (m.drop (m.length - 16)) (topBytes 16 d)

/-- The CMAC input `T` of `s2v_final` (42_s2v R132). -/
def s2vLast (d : Block) (m : ByteString) : ByteString :=
  if h : 16 ≤ m.length then xorend m d h else topBytes 16 (dbl d ^^^ pad m (by omega))

/-- `s2v_final(D, M)` with the two subkeys given (42_s2v R132). -/
def s2vFinalWith (ek : Block → Block) (k1 k2 d : Block) (m : ByteString) : Block := cmacWith ek k1 k2 (s2vLast d m)

/-- The loop of 42_s2v R133: `D` after the associated-data strings, in order. -/
def s2vChain (ek : Block → Block) (ads : List ByteString) : Block :=
  ads.foldl (fun d a => s2vStep d (cmac ek a)) (cmac ek (zeros 16))

/-- `s2v(k, [A_1, ..., A_m, P])` (42_s2v R133). The list is never empty: the last component is its own argument. -/
def s2v (ek : Block → Block) (ads : List ByteString) (p : ByteString) : Block :=
  cmac ek (s2vLast (s2vChain ek ads) p)

end Sys2Proof.Machine
end

