-- ==== Sys2Proof/Machine/SivCtr.lean ====
section
/-! DEFINITION. SIV-CTR encipherment (43_siv_ctr). `ek` is the block cipher under the CTR key. -/

namespace Sys2Proof.Machine

/-- `q_mask(s)`: clear exactly bits 63 and 31, bit 0 least significant (43_siv_ctr R140; 90_conflicts C1). -/
def qMask (s : Block) : Block := s &&& ~~~(0x80000000_80000000#128)

/-- `inc32(c)`: the low 32 bits plus one modulo 2^32, the other 96 unchanged (43_siv_ctr R141; 90_conflicts C4). -/
def inc32 (c : Block) : Block := c.extractLsb' 32 96 ++ (c.extractLsb' 0 32 + 1#32)

/-- The counter block `C_j` that starts from `c` (43_siv_ctr R142). -/
def counterBlock (c : Block) : Nat → Block
  | 0 => c
  | j + 1 => inc32 (counterBlock c j)

/-- `q` keystream blocks `E(k, C_j)` from the counter block `c` on, as bytes (43_siv_ctr R142). -/
def keystream (ek : Block → Block) (c : Block) : Nat → ByteString
  | 0 => []
  | q + 1 => topBytes 16 (ek c) ++ keystream ek (inc32 c) q

/-- `siv_ctr(k, seed, data)`: the keystream of `ceil(n/16)` blocks, cut to the data's length (43_siv_ctr R142). -/
def sivCtr (ek : Block → Block) (seed : Block) (data : ByteString) : ByteString :=
  xorBytes data (keystream ek (qMask seed) ((data.length + 15) / 16))

end Sys2Proof.Machine
end

