-- ==== Sys2Proof/Machine/Transaction.lean ====
section
/-! DEFINITION. The transaction commands (46_commands_transaction R170 to R175). Where a command uses the block cipher
or the capacity, its meaning stands once over any `Config` and the machine runs it at `Config.chip`. -/

namespace Sys2Proof.Machine

/-- BEGIN on a core with parameters `cfg` (46_commands_transaction R170). `d` is `cmac(mac_key, ZERO)` with the cached
subkeys (41_cmac R112, log 7). -/
def execBeginAt (cfg : Config) (s : State) : Result :=
  requirePhase [.ready, .done] s (respond 0 (s.openTransaction (s2vInitWith (macE cfg s) s.k1 s.k2)))

/-- BEGIN: open a transaction (46_commands_transaction R170). -/
def execBegin (s : State) : Result := execBeginAt Config.chip s

/-- ADPUSH on a core with parameters `cfg` (46_commands_transaction R171). -/
def execAdpushAt (cfg : Config) (nbytes : Fin 17) (last : Bool) (data : Block) (s : State) : Result :=
  requirePhase [.collect] s <|
    raiseIf (last && nbytes == 0 && s.adOpen) .proto s <|
    if last then
      respond 0 (s.closeComponent (s2vStep s.d (cmacFinish (macE cfg s) s.k1 s.k2 s.cmacX data nbytes)))
    else
      respond 0 (s.absorbBeat (cmacAbsorb (macE cfg s) s.cmacX data))

/-- ADPUSH: one beat of an associated-data component (46_commands_transaction R171). -/
def execAdpush (nbytes : Fin 17) (last : Bool) (data : Block) (s : State) : Result :=
  execAdpushAt Config.chip nbytes last data s

/-- MSGPUSH on a core with parameters `cfg` (46_commands_transaction R172). -/
def execMsgpushAt (cfg : Config) (nbytes : Fin 17) (data : Block) (s : State) : Result :=
  requirePhase [.collect] s <|
    raiseIf s.msgClosed .proto s <|
    raiseIf (decide (s.ilen + nbytes.val > cfg.bufCap)) .overflow s <|
    respond 0 (s.appendMessage (beatBytes nbytes data) (decide (nbytes.val < 16)))

/-- MSGPUSH: append one beat to the input buffer (46_commands_transaction R172). -/
def execMsgpush (nbytes : Fin 17) (data : Block) (s : State) : Result := execMsgpushAt Config.chip nbytes data s

/-- The SIV of the collected plaintext, `s2v_final(d, P)` (46_commands_transaction R173). -/
def sivOf (cfg : Config) (s : State) (p : ByteString) : Block := s2vFinalWith (macE cfg s) s.k1 s.k2 s.d p

/-- The envelope ENCRYPT computes, `siv ++ siv_ctr(ctr_key, siv, P)` (46_commands_transaction R173). -/
def encryptOutput (cfg : Config) (s : State) : ByteString :=
  let p := memRead s.ibuf 0 s.ilen
  mkEnvelope (sivOf cfg s p) (sivCtr (ctrE cfg s) (sivOf cfg s p) p)

/-- ENCRYPT on a core with parameters `cfg` (46_commands_transaction R173). -/
def execEncryptAt (cfg : Config) (s : State) : Result :=
  requirePhase [.collect] s <|
    raiseIf s.adOpen .proto s <|
    raiseIf (decide (s.ilen + 16 > cfg.bufCap)) .overflow s <|
    respond 0 (s.finish (encryptOutput cfg s))

/-- ENCRYPT: end the transaction as an encryption (46_commands_transaction R173). -/
def execEncrypt (s : State) : Result := execEncryptAt Config.chip s

/-- The plaintext candidate of DECRYPT, `siv_ctr(ctr_key, siv, ct)` (46_commands_transaction R174). -/
def candidate (cfg : Config) (s : State) : ByteString :=
  sivCtr (ctrE cfg s) (envelopeSiv s.ibuf) (envelopeCt s.ibuf)

/-- DECRYPT on a core with parameters `cfg` (46_commands_transaction R174): envelope length, then the comparison, and
`obuf` written only after it succeeded. -/
def execDecryptAt (cfg : Config) (s : State) : Result :=
  requirePhase [.collect] s <|
    raiseIf s.adOpen .proto s <|
    raiseIf (decide (s.ilen < 16)) .envelope s <|
    raiseIf (!ctEq (sivOf cfg s (candidate cfg s)) (envelopeSiv s.ibuf)) .auth s <|
    respond 0 (s.finish (candidate cfg s))

/-- DECRYPT: end the transaction as a decryption with tag check (46_commands_transaction R174). -/
def execDecrypt (s : State) : Result := execDecryptAt Config.chip s

/-- OUTRD: read one 16-byte block of the result (46_commands_transaction R175). -/
def execOutrd (blk : Fin 16777216) (s : State) : Result :=
  requirePhase [.done] s <|
    raiseIf (decide (16 * blk.val ≥ s.olen)) .proto s <|
    respond (resultBlock s.obuf blk.val) s

end Sys2Proof.Machine
end

