-- ==== Sys2Proof/Machine/Dispatch.lean ====
section
/-! DEFINITION. The meaning of each command (45_commands_key R165), one arm per constructor of `Instr`. -/

namespace Sys2Proof.Machine

def exec (i : Instr) (s : State) : Host.Outcome State Fault Refusal :=
  match i with
  | .nop => Sys2Proof.Machine.execNop s
  | .zeroize => Sys2Proof.Machine.execZeroize s
  | .statrd => Sys2Proof.Machine.execStatrd s
  | .keywr idx data => Sys2Proof.Machine.execKeywr idx data s
  | .keyinit klen => Sys2Proof.Machine.execKeyinit klen s
  | .begin => Sys2Proof.Machine.execBegin s
  | .adpush nbytes last data => Sys2Proof.Machine.execAdpush nbytes last data s
  | .msgpush nbytes data => Sys2Proof.Machine.execMsgpush nbytes data s
  | .encrypt => Sys2Proof.Machine.execEncrypt s
  | .decrypt => Sys2Proof.Machine.execDecrypt s
  | .outrd blk => Sys2Proof.Machine.execOutrd blk s

end Sys2Proof.Machine
end

