-- ==== Sys2Proof/Machine/Step.lean ====
section
/-! DEFINITION. One step of the core (00_scope R9, 45_commands_key R165): the host's next event, if there is one. -/

namespace Sys2Proof.Machine

/-- One step. With no event pending nothing changes (00_scope R9, log 2). A reset event resets
(70_reset_and_hazards R231). A command is decoded; an illegal word fails with E_ILLEGAL, any other word runs
(45_commands_key R165). -/
def step (s : State) : Host.Outcome State Fault Refusal :=
  match takeEvent s with
  | none => .next s
  | some (.reset, s1) => resetEvent s1
  | some (.command c, s1) =>
    match decodeRecord c with
    | .ok i => exec i s1
    | .error _ => fail .illegal s1

/-- `s` with the command whose word spec/opcode_table.json numbers `w` as the host's next event (log 10). -/
def State.withFetchWord (s : State) (nbits w : Nat) : State :=
  s.withInbox (.command (mkRecord (tableCtrl nbits w) (tableData nbits w)) :: s.inbox)

end Sys2Proof.Machine
end

