-- ==== Sys2Proof/Machine/Pseudo.lean ====
section
/-! DEFINITION. The command sequences of the pseudo-instructions (30_encoding R93) and of the document's operations
(00_scope R11). They are what a host issues; the core does not read them. -/

namespace Sys2Proof.Machine

/-- `q = ceil(n/16)` (30_encoding R93). -/
def beatCount (n : Nat) : Nat := (n + 15) / 16

/-- `KEY s`: KEYWR of each word, then KEYINIT. Defined for at most 64 bytes (30_encoding R93). -/
def keySeq (s : ByteString) (fits : s.length ≤ 64) : List Instr :=
  (List.range (beatCount s.length)).map (fun j => .keywr (Fin.ofNat 4 j) (blockAt s j)) ++
    [.keyinit ⟨s.length, by omega⟩]

/-- `AD s`: one associated-data component, cut into beats (30_encoding R93). -/
def adSeq (s : ByteString) : List Instr :=
  if s.length = 0 then [.adpush 0 true 0]
  else
    let q := beatCount s.length
    (List.range (q - 1)).map (fun j => .adpush 16 false (blockAt s j)) ++
      [.adpush (Fin.ofNat 17 (s.length - 16 * (q - 1))) true (blockAt s (q - 1))]

/-- `MSG s`, and `ENV s`: the beats of a message (30_encoding R93). -/
def msgSeq (s : ByteString) : List Instr :=
  (List.range (beatCount s.length)).map fun j => .msgpush (Fin.ofNat 17 (min 16 (s.length - 16 * j))) (blockAt s j)

/-- `OUT n`: read a result of `n` bytes (30_encoding R93). R93 bounds `n` for KEY and not for OUT, and the 24-bit `blk` has
no index for block `2^24` and beyond. DESIGN CHOICE (log 17; safe): the index wraps modulo `2^24` there. No result is so
long: `n ≤ BUF_CAP ≤ 2^28`. -/
def outSeq (n : Nat) : List Instr := (List.range (beatCount n)).map fun j => .outrd (Fin.ofNat 16777216 j)

/-- `encrypt(plaintext, associated_data)` up to its ENCRYPT, with the result in `obuf` (46_commands_transaction R177). -/
def encryptSeq (ads : List ByteString) (p : ByteString) : List Instr :=
  .begin :: (ads.flatMap adSeq ++ msgSeq p ++ [.encrypt])

/-- `decrypt(envelope, associated_data)` up to its DECRYPT, with the result in `obuf` (46_commands_transaction R178). -/
def decryptSeq (ads : List ByteString) (v : ByteString) : List Instr :=
  .begin :: (ads.flatMap adSeq ++ msgSeq v ++ [.decrypt])

/-! ## The document's operations (00_scope R11) -/

/-- `new(key)`: KEYWR for each word of the key, then KEYINIT. -/
def newOperation (key : ByteString) (fits : key.length ≤ 64) : List Instr := keySeq key fits

/-- `encrypt(plaintext, associated_data)`: the transaction, then OUTRD for each block of the envelope. -/
def encryptOperation (ads : List ByteString) (p : ByteString) : List Instr :=
  encryptSeq ads p ++ outSeq (16 + p.length)

/-- `decrypt(envelope, associated_data)`: the transaction, then OUTRD for each block of the plaintext. `verified` says
whether DECRYPT responded OK: after a failure there is no output block (log 18). -/
def decryptOperation (ads : List ByteString) (v : ByteString) (verified : Bool) : List Instr :=
  decryptSeq ads v ++ outSeq (if verified then v.length - 16 else 0)

/-- Dropping the instance. -/
def dropOperation : List Instr := [.zeroize]

/-- The host events that issue these commands in order. -/
def issue (is : List Instr) : List HostEvent := is.map fun i => .command (encode i)

end Sys2Proof.Machine
end

