-- ==== Sys2Proof/Safety.lean ====
section
/-! DEFINITION. What holds in every reachable state (10_state R36), and what the host can see (60_exceptions R221). -/

namespace Sys2Proof.Safety

open Sys2Proof.Machine

/-- The invariants (a) to (h) of 10_state R36 and, from 10_state R24, that the key registers are zero below their
`ksize` bytes. -/
structure Inv (cfg : Config) (s : State) : Prop where
  /-- (a), first half. -/
  unkeyed_iff : s.phase = .unkeyed ↔ s.ksel = .none
  /-- (a), second half (one direction only, 90_conflicts C12). -/
  no_key : s.ksel = .none → s.macKey = 0 ∧ s.ctrKey = 0 ∧ s.k1 = 0 ∧ s.k2 = 0
  /-- (b). -/
  staging_clear : s.phase ≠ .unkeyed → s.kw = #v[0, 0, 0, 0] ∧ s.kwValid = 0
  /-- (c). -/
  chain_clear : s.phase ≠ .collect →
    s.d = 0 ∧ s.cmacX = 0 ∧ s.adOpen = false ∧ s.msgClosed = false ∧ s.ibuf = []
  /-- (d). -/
  output_clear : s.phase ≠ .done → s.obuf = []
  /-- (e). -/
  cmac_clear : s.adOpen = false → s.cmacX = 0
  /-- (f). -/
  append_aligned : s.msgClosed = false → s.ilen % 16 = 0
  /-- (g). -/
  capacity : s.ilen ≤ cfg.bufCap ∧ s.olen ≤ cfg.bufCap
  /-- (h). -/
  subkeys_cached : s.ksel ≠ .none → s.k1 = dbl (macE cfg s 0) ∧ s.k2 = dbl s.k1
  /-- 10_state R24: "zero in the unused low bits". -/
  keys_left_aligned : s.macKey <<< (8 * s.ksel.ksize) = 0 ∧ s.ctrKey <<< (8 * s.ksel.ksize) = 0

/-- Two states the host cannot tell apart: equal in everything 60_exceptions R221 lets it obtain (STATUS, the responses,
`obuf`) and in what it will issue; `kw`, the keys, the subkeys, `d`, `cmac_x` and the bytes of `ibuf` may differ. -/
structure SameView (s t : State) : Prop where
  phase : s.phase = t.phase
  ksel : s.ksel = t.ksel
  kwValid : s.kwValid = t.kwValid
  adOpen : s.adOpen = t.adOpen
  msgClosed : s.msgClosed = t.msgClosed
  ilen : s.ilen = t.ilen
  obuf : s.obuf = t.obuf
  err : s.err = t.err
  inbox : s.inbox = t.inbox
  rsps : s.rsps = t.rsps

/-- `n` steps of the machine. -/
def run (n : Nat) (s : State) : Result := Host.Core.run Sys2Proof.core n s

end Sys2Proof.Safety
end

