-- ==== Sys2Proof/Certificates/Slice0/Obligations.lean ====
section
/-! DEFINITION. The statements about the model, for the provers. Each docstring names the rule of spec/ it formalises or
rests on. The responses stand in `rsps` and the host's events in `inbox`; these two fields are the model's own
(log 1, log 3). -/

namespace Sys2Proof.Claims

open Sys2Proof.Machine

/-! ## What the statements are written with -/

/-- The command gave exactly one response and took no event of its own (30_encoding R72). -/
def Answered (s t : State) (rc : RespCode) (rdata : Block) : Prop :=
  t.rsps = s.rsps ++ [⟨rc, rdata⟩] ∧ t.inbox = s.inbox

/-- The installed key and its subkeys are unchanged. -/
def KeysKept (s t : State) : Prop :=
  t.ksel = s.ksel ∧ t.macKey = s.macKey ∧ t.ctrKey = s.ctrKey ∧ t.k1 = s.k1 ∧ t.k2 = s.k2

/-- The key buffer is unchanged. -/
def StagingKept (s t : State) : Prop := t.kw = s.kw ∧ t.kwValid = s.kwValid

/-- The key buffer is all zero and holds no word. -/
def StagingClear (t : State) : Prop := (∀ j : Fin 4, t.kw[j] = 0) ∧ t.kwValid = 0

/-- Every byte of a buffer reads as before. -/
def BytesKept (a b : ByteString) : Prop := ∀ addr, memByte b addr = memByte a addr

/-- The chain and the open component are unchanged. -/
def ChainKept (s t : State) : Prop := t.d = s.d ∧ t.cmacX = s.cmacX ∧ t.adOpen = s.adOpen

/-- The state and the response of a failure (60_exceptions R210). -/
structure Aborted (s : State) (code : RespCode) (t : State) : Prop where
  answered : Answered s t code 0
  staging : StagingClear t
  chain : t.d = 0 ∧ t.cmacX = 0 ∧ t.adOpen = false ∧ t.msgClosed = false
  buffers : t.ibuf = [] ∧ t.obuf = []
  phase : t.phase = if s.ksel = .none then .unkeyed else .ready
  err : t.err = code
  keys : KeysKept s t

/-- The value of every element after reset, and of STATUS (70_reset_and_hazards R230). -/
structure ResetValues (r : State) : Prop where
  sequencing : r.phase = .unkeyed ∧ r.ksel = .none
  staging : StagingClear r
  keys : r.macKey = 0 ∧ r.ctrKey = 0 ∧ r.k1 = 0 ∧ r.k2 = 0
  chain : r.d = 0 ∧ r.cmacX = 0 ∧ r.adOpen = false ∧ r.msgClosed = false
  buffers : r.ibuf = [] ∧ r.obuf = [] ∧ r.ilen = 0 ∧ r.olen = 0
  err : r.err = .ok
  status : statusWord r = 0

/-- 46_commands_transaction R176: the phase after an OK response, `none` where the table has `P`. -/
def phaseTable : Instr → Phase → Option Phase
  | .nop, p => some p
  | .statrd, p => some p
  | .zeroize, _ => some .unkeyed
  | .keywr _ _, p => if p = .unkeyed then some .unkeyed else none
  | .keyinit _, p => if p = .unkeyed then some .ready else none
  | .begin, p => if p = .ready ∨ p = .done then some .collect else none
  | .adpush _ _ _, p => if p = .collect then some .collect else none
  | .msgpush _ _, p => if p = .collect then some .collect else none
  | .encrypt, p => if p = .collect then some .done else none
  | .decrypt, p => if p = .collect then some .done else none
  | .outrd _, p => if p = .done then some .done else none

/-- A key word the length needs was not written (60_exceptions R201). -/
abbrev wordMissing (s : State) (klen : Nat) : Prop := ∃ i, i < klen / 16 ∧ s.kwValid.getLsbD i = false

/-- The recomputed SIV of DECRYPT differs from the received one (60_exceptions R203). -/
abbrev tagMismatch (s : State) : Prop :=
  sivOf Config.chip s (candidate Config.chip s) ≠ packBytes 128 (s.ibuf.take 16)

/-- The code of the first failing check, in the order of 60_exceptions R211; OK if none fails. -/
def firstFailure (i : Instr) (s : State) : RespCode :=
  if phaseTable i s.phase = none then .proto
  else match i with
    | .keyinit klen => if klen ∉ [32, 48, 64] ∨ wordMissing s klen.val then .construct else .ok
    | .adpush nbytes last _ => if last = true ∧ nbytes = 0 ∧ s.adOpen = true then .proto else .ok
    | .msgpush nbytes _ =>
      if s.msgClosed = true then .proto else if Config.chip.bufCap < s.ilen + nbytes.val then .overflow else .ok
    | .encrypt => if s.adOpen = true then .proto else if Config.chip.bufCap < s.ilen + 16 then .overflow else .ok
    | .decrypt =>
      if s.adOpen = true then .proto else if s.ilen < 16 then .envelope
      else if tagMismatch s then .auth else .ok
    | .outrd blk => if s.olen ≤ 16 * blk.val then .proto else .ok
    | .nop => .ok
    | .zeroize => .ok
    | .statrd => .ok
    | .keywr _ _ => .ok
    | .begin => .ok

/-- The numbers of the phases (10_state R22). -/
def phaseNumber : Phase → BitVec 2
  | .unkeyed => 0
  | .ready => 1
  | .collect => 2
  | .done => 3

/-- The numbers of `ksel` (10_state R25). -/
def kselNumber : KSel → BitVec 2
  | .none => 0
  | .k16 => 1
  | .k24 => 2
  | .k32 => 3

/-- The numbers of the response codes (60_exceptions R200). -/
def codeNumber : RespCode → BitVec 4
  | .ok => 0
  | .construct => 1
  | .envelope => 2
  | .auth => 3
  | .proto => 4
  | .overflow => 5
  | .illegal => 6

/-- The fields of STATUS (10_state R33). -/
structure StatusFields (s : State) (w : Block) : Prop where
  phase : w.extractLsb' 0 2 = phaseNumber s.phase
  keyValid : w.getLsbD 2 = decide (s.ksel ≠ .none)
  ksel : w.extractLsb' 3 2 = kselNumber s.ksel
  adOpen : w.getLsbD 5 = s.adOpen
  msgClosed : w.getLsbD 6 = s.msgClosed
  reserved7 : w.getLsbD 7 = false
  err : w.extractLsb' 8 4 = codeNumber s.err
  kwValid : w.extractLsb' 12 4 = s.kwValid
  reserved16 : w.extractLsb' 16 16 = 0#16
  ilen : w.extractLsb' 32 32 = BitVec.ofNat 32 s.ilen
  olen : w.extractLsb' 64 32 = BitVec.ofNat 32 s.olen
  reserved96 : w.extractLsb' 96 32 = 0#32

/-- The code of a failing record or command: decode first, then the command's checks (60_exceptions R211). -/
def reportedCode (c : CommandRecord) (s : State) : RespCode :=
  match decodeRecord c with
  | .ok i => firstFailure i s
  | .error _ => .illegal

/-- One row of the opcode map (30_encoding R76): `match`, `mask`, the field constraint. -/
structure Row where
  matchWord : BitVec 32
  mask : BitVec 32
  constraint : BitVec 32 → Bool

/-- The row selects the control word. -/
def Row.selects (r : Row) (ctrl : BitVec 32) : Prop := ctrl &&& r.mask = r.matchWord ∧ r.constraint ctrl = true

/-- The field `nbytes = ctrl[4:0]` (30_encoding R73). -/
def nbytesField (ctrl : BitVec 32) : Nat := (ctrl.extractLsb' 0 5).toNat

/-- The opcode map, rows as 30_encoding R76 and spec/opcode_table.json print them. -/
def opcodeMap : List Row :=
  [⟨0x00000000#32, 0xFFFFFFFF#32, fun _ => true⟩,
   ⟨0x01000000#32, 0xFFFFFFFF#32, fun _ => true⟩,
   ⟨0x02000000#32, 0xFFFFFFFF#32, fun _ => true⟩,
   ⟨0x10000000#32, 0xFFFFFFFC#32, fun _ => true⟩,
   ⟨0x11000000#32, 0xFFFFFF00#32, fun _ => true⟩,
   ⟨0x20000000#32, 0xFFFFFFFF#32, fun _ => true⟩,
   ⟨0x21000000#32, 0xFFFFFEE0#32, fun c => decide (nbytesField c ≤ 16) && (c.getLsbD 8 || decide (nbytesField c = 16))⟩,
   ⟨0x22000000#32, 0xFFFFFFE0#32, fun c => decide (1 ≤ nbytesField c) && decide (nbytesField c ≤ 16)⟩,
   ⟨0x30000000#32, 0xFFFFFFFF#32, fun _ => true⟩,
   ⟨0x31000000#32, 0xFFFFFFFF#32, fun _ => true⟩,
   ⟨0x40000000#32, 0xFF000000#32, fun _ => true⟩]

/-- The row of a command in the opcode map. -/
def rowOf : Instr → Nat
  | .nop => 0
  | .zeroize => 1
  | .statrd => 2
  | .keywr _ _ => 3
  | .keyinit _ => 4
  | .begin => 5
  | .adpush _ _ _ => 6
  | .msgpush _ _ => 7
  | .encrypt => 8
  | .decrypt => 9
  | .outrd _ => 10

/-- The opcodes that are not reserved (30_encoding R77 case 1). -/
def definedOpcodes : List (BitVec 8) :=
  [0x00#8, 0x01#8, 0x02#8, 0x10#8, 0x11#8, 0x20#8, 0x21#8, 0x22#8, 0x30#8, 0x31#8, 0x40#8]

/-- The reserved bits of the format of an opcode (30_encoding R73), as a mask over `ctrl[23:0]`. -/
def reservedMask (op : BitVec 8) : BitVec 24 :=
  if op = 0x10#8 then 0xFFFFFC#24
  else if op = 0x11#8 then 0xFFFF00#24
  else if op = 0x21#8 then 0xFFFEE0#24
  else if op = 0x22#8 then 0xFFFFE0#24
  else if op = 0x40#8 then 0x000000#24
  else 0xFFFFFF#24

/-- The five cases of 30_encoding R77. -/
def IllegalCase (ctrl : BitVec 32) : Prop :=
  ctrl.extractLsb' 24 8 ∉ definedOpcodes ∨
  (ctrl.extractLsb' 24 8 ∈ definedOpcodes ∧ ctrl.extractLsb' 0 24 &&& reservedMask (ctrl.extractLsb' 24 8) ≠ 0) ∨
  (ctrl.extractLsb' 24 8 = 0x21#8 ∧ 16 < nbytesField ctrl) ∨
  (ctrl.extractLsb' 24 8 = 0x21#8 ∧ ctrl.getLsbD 8 = false ∧ nbytesField ctrl ≠ 16) ∨
  (ctrl.extractLsb' 24 8 = 0x22#8 ∧ (nbytesField ctrl = 0 ∨ 16 < nbytesField ctrl))

/-- ADPUSH or not. -/
def isAdpush : Instr → Bool
  | .adpush _ _ _ => true
  | .nop => false
  | .zeroize => false
  | .statrd => false
  | .keywr _ _ => false
  | .keyinit _ => false
  | .begin => false
  | .msgpush _ _ => false
  | .encrypt => false
  | .decrypt => false
  | .outrd _ => false

/-- A beat with its unused bytes zero, as the pseudo-instructions write it (30_encoding R92); any other command as it
is. -/
def zeroFilled : Instr → Instr
  | .adpush nbytes last w => .adpush nbytes last (packBytes 128 (topBytes nbytes.val w))
  | .msgpush nbytes w => .msgpush nbytes (packBytes 128 (topBytes nbytes.val w))
  | .nop => .nop
  | .zeroize => .zeroize
  | .statrd => .statrd
  | .keywr idx w => .keywr idx w
  | .keyinit klen => .keyinit klen
  | .begin => .begin
  | .encrypt => .encrypt
  | .decrypt => .decrypt
  | .outrd blk => .outrd blk

/-- `n` responses OK with no read data. -/
def oks (n : Nat) : List Response := List.replicate n ⟨.ok, 0⟩

/-- These responses, one for each block of `result`, hand it to the host: all OK, and their read data in order are its
bytes followed by the zeros that fill the last block (20_memory R53, 46_commands_transaction R175). -/
structure ReadsBack (out : List Response) (result : ByteString) : Prop where
  ok : ∀ r ∈ out, r.rc = .ok
  count : out.length = beatCount result.length
  bytes : out.flatMap (fun r => topBytes 16 r.rdata) = result ++ zeros (16 * beatCount result.length - result.length)

/-- The machine, given these commands and no other event, runs them all and arrives at `t`. -/
def Runs (s : State) (is : List Instr) (t : State) : Prop :=
  Safety.run is.length { s with inbox := issue is } = .next t

end Sys2Proof.Claims

open Sys2Proof Sys2Proof.Machine Sys2Proof.Claims Sys2Proof.Safety

/-! ## Reset and configuration -/

/-- 70_reset_and_hazards R230: the reset state, and the state after a reset event in any state, have every element, and
STATUS, at its reset value. -/
def Obligations.ResetClearsEveryElement : Prop :=
  ResetValues State.reset ∧ ∀ s rest, s.inbox = .reset :: rest → ∃ t, step s = .next t ∧ ResetValues t

/-- 70_reset_and_hazards R231: a reset event between two steps, whatever the state, gives the state of R230; it gives no
response and the host's later events stand (the model's choice, log 9). -/
def Obligations.ResetEventGivesTheResetState : Prop :=
  ∀ s rest, s.inbox = .reset :: rest → step s = .next { State.reset with inbox := rest, rsps := s.rsps }

/-- 00_scope R6: the capacity is a multiple of 16 between 32 and 2^28, and it may be any such number. -/
def Obligations.CapacityIsAnyMultipleOfSixteenInRange : Prop :=
  (∀ cfg : Config, cfg.bufCap % 16 = 0 ∧ 32 ≤ cfg.bufCap ∧ cfg.bufCap ≤ 2 ^ 28) ∧
    ∀ n, n % 16 = 0 → 32 ≤ n → n ≤ 2 ^ 28 → ∃ cfg : Config, cfg.bufCap = n

/-! ## Encoding -/

/-- Words of 95_test_vectors V14, one of each row and one illegal word. A sanity statement. -/
def Obligations.WordsOfEachRowDecode : Prop :=
  decode 0x00000000#32 7 = .ok .nop ∧ decode 0x01000000#32 7 = .ok .zeroize ∧ decode 0x02000000#32 7 = .ok .statrd ∧
    decode 0x10000003#32 7 = .ok (.keywr 3 7) ∧ decode 0x11000030#32 7 = .ok (.keyinit 48) ∧
    decode 0x20000000#32 7 = .ok .begin ∧ decode 0x21000108#32 7 = .ok (.adpush 8 true 7) ∧
    decode 0x22000010#32 7 = .ok (.msgpush 16 7) ∧ decode 0x30000000#32 7 = .ok .encrypt ∧
    decode 0x31000000#32 7 = .ok .decrypt ∧ decode 0x40ffffff#32 7 = .ok (.outrd 16777215) ∧
    decode 0x21000210#32 7 = .error .reservedBit

/-- 30_encoding R78, R91: decoding the record of a legal command gives it back, every operand at every value. -/
def Obligations.DecodeOfEncodeIsTheCommand : Prop :=
  ∀ i : Instr, i.wellFormed = true → decodeRecord (encode i) = .ok i

/-- 30_encoding R76, R91: the other direction. A control word that decodes is the encoding of the command it decodes to,
which is legal; a command with a data operand has the record's `data` word. -/
def Obligations.LegalWordIsTheEncodingOfItsCommand : Prop :=
  ∀ ctrl data i, decode ctrl data = .ok i →
    encodeCtrl i = ctrl ∧ i.wellFormed = true ∧
      (dataField i = data ∨ (dataField i = 0 ∧ ∀ other, decode ctrl other = .ok i))

/-- 30_encoding R91: the control word of each command as a number, for every operand R76 admits. -/
def Obligations.FieldsStandWhereTheFormatsPlaceThem : Prop :=
  (∀ (idx : Fin 4) data, decode (BitVec.ofNat 32 (0x10000000 + idx.val)) data = .ok (.keywr idx data)) ∧
    (∀ (klen : Fin 256) data, decode (BitVec.ofNat 32 (0x11000000 + klen.val)) data = .ok (.keyinit klen)) ∧
    (∀ (nbytes : Fin 17) data,
      decode (BitVec.ofNat 32 (0x21000000 + 256 + nbytes.val)) data = .ok (.adpush nbytes true data)) ∧
    (∀ data, decode (BitVec.ofNat 32 (0x21000000 + 16)) data = .ok (.adpush 16 false data)) ∧
    (∀ (nbytes : Fin 17) data, 1 ≤ nbytes.val →
      decode (BitVec.ofNat 32 (0x22000000 + nbytes.val)) data = .ok (.msgpush nbytes data)) ∧
    ∀ (blk : Fin 16777216) data, decode (BitVec.ofNat 32 (0x40000000 + blk.val)) data = .ok (.outrd blk)

/-- 30_encoding R76: a row selects a control word exactly when the word decodes to that row's command; every word that
decodes is selected by its command's row; no word is selected by two rows. -/
def Obligations.ExactlyOneRowSelectsALegalWord : Prop :=
  ∀ ctrl data,
    (∀ k r, opcodeMap[k]? = some r → (r.selects ctrl ↔ ∃ i, decode ctrl data = .ok i ∧ rowOf i = k)) ∧
    (∀ i, decode ctrl data = .ok i → ∃ r, opcodeMap[rowOf i]? = some r ∧ r.selects ctrl) ∧
    ∀ (a b : Nat) r r', opcodeMap[a]? = some r → opcodeMap[b]? = some r' → r.selects ctrl → r'.selects ctrl → a = b

/-- 30_encoding R77: the illegal control words are exactly those of the five cases, whatever `data` is, and a command
with such a word fails with E_ILLEGAL and the abort of every failure. -/
def Obligations.IllegalWordsAreTheFiveCases : Prop :=
  (∀ ctrl data, (∃ e, decode ctrl data = .error e) ↔ IllegalCase ctrl) ∧
    ∀ s c rest, s.inbox = .command c :: rest → IllegalCase (ctrlOf c) →
      ∃ t, step s = .next t ∧ Aborted { s with inbox := rest } .illegal t

/-- 20_memory R53 and 30_encoding R70: bytes of a beat at index `nbytes` and beyond, and the whole `data` word of a
command without a data operand, have no effect. -/
def Obligations.IgnoredDataHasNoEffect : Prop :=
  (∀ (nbytes : Fin 17) w w' s, topBytes nbytes.val w = topBytes nbytes.val w' →
      exec (.adpush nbytes true w) s = exec (.adpush nbytes true w') s ∧
      exec (.msgpush nbytes w) s = exec (.msgpush nbytes w') s) ∧
    ∀ ctrl w w' i, decode ctrl w = .ok i →
      (∀ idx x, i ≠ .keywr idx x) → (∀ n l x, i ≠ .adpush n l x) → (∀ n x, i ≠ .msgpush n x) → decode ctrl w' = .ok i

/-! ## Steps, responses and failures -/

/-- 45_commands_key R165: a step runs the command its record decodes to, in the state without that event. -/
def Obligations.StepRunsTheDecodedCommand : Prop :=
  ∀ s c rest i, s.inbox = .command c :: rest → decodeRecord c = .ok i → step s = exec i { s with inbox := rest }

/-- 60_exceptions R205: a record with an illegal control word fails with E_ILLEGAL and the abort of R210. -/
def Obligations.IllegalCommandFailsWithEIllegal : Prop :=
  ∀ s c rest e, s.inbox = .command c :: rest → decodeRecord c = .error e →
    ∃ t, step s = .next t ∧ Aborted { s with inbox := rest } .illegal t

/-- The model's choice for a step with no pending event (log 2; 00_scope R9 says that nothing changes between steps). -/
def Obligations.StepWithoutEventChangesNothing : Prop := ∀ s, s.inbox = [] → step s = .next s

/-- 30_encoding R72: every command, legal or not, gives exactly one response, a record of `rc` and `rdata`; `rdata` is
the read data of STATRD and OUTRD when `rc` is OK, and zero with every other command and every non-OK code. -/
def Obligations.EveryCommandGivesOneResponse : Prop :=
  ∀ s c rest, s.inbox = .command c :: rest →
    ∃ t r, step s = .next t ∧ t.rsps = s.rsps ++ [r] ∧ t.inbox = rest ∧
      r.bits.extractLsb' 128 4 = codeNumber r.rc ∧ r.bits.extractLsb' 0 128 = r.rdata ∧
      (r.rc ≠ .ok → r.rdata = 0) ∧
      ∀ i, decodeRecord c = .ok i →
        (i = .statrd → r.rc = .ok ∧ r.rdata = statusWord s) ∧
        (∀ blk, i = .outrd blk → r.rc = .ok → r.rdata = resultBlock s.obuf blk.val) ∧
        (i ≠ .statrd → (∀ blk, i ≠ .outrd blk) → r.rdata = 0)

/-- 60_exceptions R210: `fail(code)` has exactly the effect of the fail-closed abort, and every non-OK response to a
command comes with exactly that effect. -/
def Obligations.FailIsTheFailClosedAbort : Prop :=
  (∀ code s, ∃ t, fail code s = .next t ∧ Aborted s code t) ∧
    ∀ s c rest, s.inbox = .command c :: rest →
      ∃ t r, step s = .next t ∧ t.rsps = s.rsps ++ [r] ∧ (r.rc ≠ .ok → Aborted { s with inbox := rest } r.rc t)

/-- 60_exceptions R211: a command reports the code of its first failing check, decode first; if there is one it has the
effect of the abort and no other. -/
def Obligations.FirstFailingCheckIsReported : Prop :=
  ∀ s c rest, s.inbox = .command c :: rest →
    ∃ t rdata, step s = .next t ∧ Answered { s with inbox := rest } t (reportedCode c s) rdata ∧
      (reportedCode c s ≠ .ok → Aborted { s with inbox := rest } (reportedCode c s) t)

/-- 46_commands_transaction R176: the table. A command whose entry is `P` fails with E_PROTO; after an OK response the
phase is the entry; after any non-OK response, from decode too, it is READY with a key installed and UNKEYED without. -/
def Obligations.PhaseFollowsTheTable : Prop :=
  ∀ s c rest, s.inbox = .command c :: rest →
    ∃ t r, step s = .next t ∧ t.rsps = s.rsps ++ [r] ∧
      (∀ i, decodeRecord c = .ok i →
        (phaseTable i s.phase = none → r.rc = .proto) ∧ (r.rc = .ok → phaseTable i s.phase = some t.phase)) ∧
      (r.rc ≠ .ok → t.phase = if s.ksel = .none then .unkeyed else .ready)

/-- 60_exceptions R210: "the state after a failure is a function of `ksel` and the keys alone" (and of the code, which
`err` keeps): two failing commands, whatever they are and wherever they fail, leave the same elements. -/
def Obligations.FailureStateDependsOnKeysAlone : Prop :=
  ∀ (i i' : Instr) s s' t t' code, code ≠ .ok → KeysKept s s' →
    exec i s = .next t → t.rsps = s.rsps ++ [⟨code, 0⟩] → exec i' s' = .next t' → t'.rsps = s'.rsps ++ [⟨code, 0⟩] →
    { t with inbox := [], rsps := [] } = { t' with inbox := [], rsps := [] }

/-- 60_exceptions R214, 46_commands_transaction R176: after a failure of a keyed core the host continues with BEGIN. -/
def Obligations.AfterAFailureBeginIsAccepted : Prop :=
  ∀ (i : Instr) s t code, s.ksel ≠ .none → code ≠ .ok → exec i s = .next t → t.rsps = s.rsps ++ [⟨code, 0⟩] →
    t.phase = .ready ∧ ∃ u, exec .begin t = .next u ∧ Answered t u .ok 0 ∧ u.phase = .collect ∧ u.err = .ok

/-- 10_state R32: what every command and the reset event do to `err`, and its value after reset. -/
def Obligations.ErrKeepsTheLastFailure : Prop :=
  State.reset.err = .ok ∧
    (∀ s rest t, s.inbox = .reset :: rest → step s = .next t → t.err = .ok) ∧
    ∀ s c rest, s.inbox = .command c :: rest →
      ∃ t r, step s = .next t ∧ t.rsps = s.rsps ++ [r] ∧ (r.rc ≠ .ok → t.err = r.rc) ∧
        ∀ i, decodeRecord c = .ok i → r.rc = .ok →
          ((i = .zeroize ∨ i = .begin ∨ ∃ klen, i = .keyinit klen) → t.err = .ok) ∧
          (i ≠ .zeroize → i ≠ .begin → (∀ klen, i ≠ .keyinit klen) → t.err = s.err)

/-! ## The commands: result, frame and completion -/

/-- 45_commands_key R160: NOP responds OK in every phase and changes no state. -/
def Obligations.NopOnlyResponds : Prop := ∀ s, exec .nop s = .next { s with rsps := s.rsps ++ [⟨.ok, 0⟩] }

/-- 45_commands_key R161: ZEROIZE, in every phase, leaves exactly the reset state. -/
def Obligations.ZeroizeLeavesTheResetState : Prop :=
  ∀ s, exec .zeroize s = .next { State.reset with inbox := s.inbox, rsps := s.rsps ++ [⟨.ok, 0⟩] }

/-- 45_commands_key R164, 10_state R33: STATRD, in every phase, returns STATUS field by field and changes no state. -/
def Obligations.StatrdReturnsStatus : Prop :=
  ∀ s, ∃ w, exec .statrd s = .next { s with rsps := s.rsps ++ [⟨.ok, w⟩] } ∧ StatusFields s w

/-- 45_commands_key R162: KEYWR in UNKEYED writes `kw[idx]` and `kw_valid[idx]` and nothing else. -/
def Obligations.KeywrWritesOneKeyWord : Prop :=
  ∀ (idx : Fin 4) data s, s.phase = .unkeyed → ∃ t, exec (.keywr idx data) s = .next t ∧ Answered s t .ok 0 ∧
    (∀ j : Fin 4, t.kw[j] = if j = idx then data else s.kw[j]) ∧
    (∀ j : Fin 4, t.kwValid.getLsbD j.val = (decide (j = idx) || s.kwValid.getLsbD j.val)) ∧
    t.phase = .unkeyed ∧ KeysKept s t ∧ ChainKept s t ∧ t.msgClosed = s.msgClosed ∧ t.err = s.err ∧
    BytesKept s.ibuf t.ibuf ∧ BytesKept s.obuf t.obuf

/-- 45_commands_key R163, 20_memory R57, 10_state R24: KEYINIT in UNKEYED with a supported length and every needed word
written installs the two halves left-aligned, derives the subkeys, destroys the staging copy and goes to READY. -/
def Obligations.KeyinitInstallsTheKey : Prop :=
  ∀ (klen : Fin 256) s, s.phase = .unkeyed → klen ∈ [32, 48, 64] → (∀ i, i < klen.val / 16 → s.kwValid.getLsbD i = true) →
    ∃ t, exec (.keyinit klen) s = .next t ∧ Answered s t .ok 0 ∧
      (klen = 32 → t.ksel = .k16 ∧ t.macKey = s.kw[0] ++ 0#128 ∧ t.ctrKey = s.kw[1] ++ 0#128) ∧
      (klen = 48 → t.ksel = .k24 ∧ t.macKey = s.kw[0] ++ s.kw[1].extractLsb' 64 64 ++ 0#64 ∧
        t.ctrKey = s.kw[1].extractLsb' 0 64 ++ s.kw[2] ++ 0#64) ∧
      (klen = 64 → t.ksel = .k32 ∧ t.macKey = s.kw[0] ++ s.kw[1] ∧ t.ctrKey = s.kw[2] ++ s.kw[3]) ∧
      t.k1 = dbl (Config.chip.E (topBytes (klen.val / 2) t.macKey) 0) ∧ t.k2 = dbl t.k1 ∧
      StagingClear t ∧ t.phase = .ready ∧ t.err = .ok ∧
      ChainKept s t ∧ t.msgClosed = s.msgClosed ∧ BytesKept s.ibuf t.ibuf ∧ BytesKept s.obuf t.obuf

/-- 46_commands_transaction R170, 41_cmac R114: BEGIN in READY or DONE sets `d` to `E(mac_key, k1)`, which is
`cmac(mac_key, ZERO)` where the cached subkeys are those of the key, and opens an empty transaction. -/
def Obligations.BeginOpensATransaction : Prop :=
  ∀ s, (s.phase = .ready ∨ s.phase = .done) → ∃ t, exec .begin s = .next t ∧ Answered s t .ok 0 ∧
    t.d = macE Config.chip s s.k1 ∧
    (Inv Config.chip s → t.d = cmac (macE Config.chip s) (zeros 16)) ∧
    t.cmacX = 0 ∧ t.adOpen = false ∧ t.msgClosed = false ∧ t.ibuf = [] ∧ t.obuf = [] ∧ t.err = .ok ∧
    t.phase = .collect ∧ KeysKept s t ∧ StagingKept s t

/-- 46_commands_transaction R171, 41_cmac R115: a non-final ADPUSH beat in COLLECT is absorbed into `cmac_x`. -/
def Obligations.AdpushAbsorbsANonFinalBeat : Prop :=
  ∀ w s, s.phase = .collect → ∃ t, exec (.adpush 16 false w) s = .next t ∧ Answered s t .ok 0 ∧
    t.cmacX = macE Config.chip s (s.cmacX ^^^ w) ∧ t.adOpen = true ∧
    t.d = s.d ∧ t.phase = .collect ∧ KeysKept s t ∧ StagingKept s t ∧ t.msgClosed = s.msgClosed ∧ t.err = s.err ∧
    BytesKept s.ibuf t.ibuf ∧ BytesKept s.obuf t.obuf

/-- 46_commands_transaction R171, 41_cmac R110, R116, 42_s2v R131: a final ADPUSH beat in COLLECT (not an empty one after
a non-final beat) finishes the component's CMAC, `K1` for a full beat and 10* padding with `K2` otherwise, and
`d <- dbl(d) xor t`. -/
def Obligations.AdpushFinishesTheComponent : Prop :=
  ∀ (nbytes : Fin 17) w s, s.phase = .collect → ¬(nbytes = 0 ∧ s.adOpen = true) →
    ∃ t last, exec (.adpush nbytes true w) s = .next t ∧ Answered s t .ok 0 ∧
      (nbytes = 16 → last = w ^^^ s.k1) ∧
      (nbytes ≠ 16 → topBytes 16 (last ^^^ s.k2) = topBytes nbytes.val w ++ [0x80#8] ++ zeros (15 - nbytes.val)) ∧
      t.d = dbl s.d ^^^ macE Config.chip s (s.cmacX ^^^ last) ∧ t.cmacX = 0 ∧ t.adOpen = false ∧
      t.phase = .collect ∧ KeysKept s t ∧ StagingKept s t ∧ t.msgClosed = s.msgClosed ∧ t.err = s.err ∧
      BytesKept s.ibuf t.ibuf ∧ BytesKept s.obuf t.obuf

/-- 46_commands_transaction R172, 20_memory R53: MSGPUSH in COLLECT, message not closed and room in the buffer, stores the
`nbytes` bytes at byte address `ilen` and leaves every other byte; a partial beat closes the message. -/
def Obligations.MsgpushAppendsItsBytes : Prop :=
  ∀ (nbytes : Fin 17) w s, (Instr.msgpush nbytes w).wellFormed = true → s.phase = .collect → s.msgClosed = false →
    s.ilen + nbytes.val ≤ Config.chip.bufCap →
    ∃ t, exec (.msgpush nbytes w) s = .next t ∧ Answered s t .ok 0 ∧
      t.ilen = s.ilen + nbytes.val ∧
      (∀ j, j < nbytes.val → memByte t.ibuf (s.ilen + j) = some (w.extractLsb' (120 - 8 * j) 8)) ∧
      (∀ addr, addr < s.ilen ∨ s.ilen + nbytes.val ≤ addr → memByte t.ibuf addr = memByte s.ibuf addr) ∧
      t.msgClosed = decide (nbytes.val < 16) ∧
      t.phase = .collect ∧ KeysKept s t ∧ StagingKept s t ∧ ChainKept s t ∧ t.err = s.err ∧ BytesKept s.obuf t.obuf

/-- 46_commands_transaction R173, 20_memory R56: ENCRYPT in COLLECT, no open component and room for the envelope, leaves
`siv ++ ct` in `obuf`: `siv` is the CMAC of `T` under the cached subkeys, which is `cmac(mac_key, T)` where they are
those of the key. -/
def Obligations.EncryptLeavesTheEnvelope : Prop :=
  ∀ s, s.phase = .collect → s.adOpen = false → s.ilen + 16 ≤ Config.chip.bufCap →
    ∃ t siv, exec .encrypt s = .next t ∧ Answered s t .ok 0 ∧
      siv = cmacWith (macE Config.chip s) s.k1 s.k2 (s2vLast s.d s.ibuf) ∧
      (Inv Config.chip s → siv = cmac (macE Config.chip s) (s2vLast s.d s.ibuf)) ∧
      t.olen = 16 + s.ilen ∧ packBytes 128 (t.obuf.take 16) = siv ∧
      t.obuf.drop 16 = sivCtr (ctrE Config.chip s) siv s.ibuf ∧
      t.ibuf = [] ∧ t.d = 0 ∧ t.cmacX = 0 ∧ t.adOpen = false ∧ t.msgClosed = false ∧ t.phase = .done ∧
      KeysKept s t ∧ StagingKept s t ∧ t.err = s.err

/-- 46_commands_transaction R174: DECRYPT in COLLECT, no open component, at least 16 bytes, and the recomputed SIV equal to
the received one, leaves the plaintext in `obuf`. -/
def Obligations.DecryptLeavesTheVerifiedPlaintext : Prop :=
  ∀ s siv pt, s.phase = .collect → s.adOpen = false → 16 ≤ s.ilen → siv = packBytes 128 (s.ibuf.take 16) →
    pt = sivCtr (ctrE Config.chip s) siv (s.ibuf.drop 16) →
    cmacWith (macE Config.chip s) s.k1 s.k2 (s2vLast s.d pt) = siv →
    ∃ t, exec .decrypt s = .next t ∧ Answered s t .ok 0 ∧ t.obuf = pt ∧ t.olen = s.ilen - 16 ∧
      t.ibuf = [] ∧ t.d = 0 ∧ t.cmacX = 0 ∧ t.adOpen = false ∧ t.msgClosed = false ∧ t.phase = .done ∧
      KeysKept s t ∧ StagingKept s t ∧ t.err = s.err

/-- 60_exceptions R203, 46_commands_transaction R174: where the recomputed SIV differs, DECRYPT fails with E_AUTH; the
abort leaves no byte of the candidate in a buffer and the key installed. -/
def Obligations.DecryptMismatchFailsWithEAuth : Prop :=
  ∀ s siv pt, s.phase = .collect → s.adOpen = false → 16 ≤ s.ilen → siv = packBytes 128 (s.ibuf.take 16) →
    pt = sivCtr (ctrE Config.chip s) siv (s.ibuf.drop 16) →
    cmacWith (macE Config.chip s) s.k1 s.k2 (s2vLast s.d pt) ≠ siv →
    ∃ t, exec .decrypt s = .next t ∧ Aborted s .auth t

/-- 46_commands_transaction R175, 20_memory R61: OUTRD in DONE of a block below `ceil(olen/16)` returns the bytes at
`16*blk ..`, zero-filled, and changes no state. -/
def Obligations.OutrdReturnsTheBlock : Prop :=
  ∀ (blk : Fin 16777216) s, s.phase = .done → 16 * blk.val < s.olen →
    ∃ w, exec (.outrd blk) s = .next { s with rsps := s.rsps ++ [⟨.ok, w⟩] } ∧
      ∀ j, j < 16 → w.extractLsb' (120 - 8 * j) 8 = (memByte s.obuf (16 * blk.val + j)).getD 0

/-! ## The units -/

/-- 40_doubler R100: the doubling of the number, and the equivalent bytewise form. -/
def Obligations.DoublerShiftsAndReduces : Prop :=
  ∀ b : Block,
    ((dbl b).toNat = if b.toNat / 2 ^ 127 = 1 then (2 * b.toNat % 2 ^ 128) ^^^ 0x87 else 2 * b.toNat % 2 ^ 128) ∧
    (∀ i, i < 15 → (dbl b).extractLsb' (8 * (15 - i)) 8 =
      (b.extractLsb' (8 * (15 - i)) 8 <<< 1) ||| (b.extractLsb' (8 * (15 - (i + 1))) 8 >>> 7)) ∧
    (dbl b).extractLsb' 0 8 =
      if 0x80#8 ≤ b.extractLsb' 120 8 then (b.extractLsb' 0 8 <<< 1) ^^^ 0x87#8 else b.extractLsb' 0 8 <<< 1

/-- 40_doubler R102: linear; a bijection, the bit shifted out being bit 0 of the result; zero only at zero. -/
def Obligations.DoublerIsALinearBijection : Prop :=
  (∀ a b, dbl (a ^^^ b) = dbl a ^^^ dbl b) ∧ (∀ a b, dbl a = dbl b → a = b) ∧ (∀ c, ∃ b, dbl b = c) ∧
    (∀ b, b.msb = (dbl b).getLsbD 0) ∧ ∀ b, dbl b = 0 → b = 0

/-- 41_cmac R114 and R113 (a), (b), (e): the CMAC of one all-zero block, of the empty string, of one block. -/
def Obligations.CmacOfAtMostOneBlock : Prop :=
  ∀ ek : Block → Block, cmac ek (zeros 16) = ek (subkeys ek).1 ∧
    (∀ w : Block, cmac ek (topBytes 16 w) = ek (w ^^^ (subkeys ek).1)) ∧
    ∀ m (h : m.length ≤ 15), cmac ek m = ek (pad m h ^^^ (subkeys ek).2)

/-- 41_cmac R117: the streaming form over the beats of 30_encoding R93 is the CMAC of the string. -/
def Obligations.StreamingCmacIsCmac : Prop :=
  ∀ (ek : Block → Block) (m : ByteString),
    let k := subkeys ek
    let q := beatCount m.length
    (m = [] → cmacFinish ek k.1 k.2 0 0 0 = cmac ek m) ∧
    (m ≠ [] →
      cmacFinish ek k.1 k.2 (((List.range (q - 1)).map (blockAt m)).foldl (cmacAbsorb ek) 0) (blockAt m (q - 1))
        (Fin.ofNat 17 (m.length - 16 * (q - 1))) = cmac ek m)

/-- 42_s2v R132: `xorend` keeps the length and the prefix and xors `D` into the last 16 bytes; below 16 bytes `T` is the one
block `dbl(D) xor pad(M)`. -/
def Obligations.S2vLastComponent : Prop :=
  ∀ (d : Block) (m : ByteString),
    (∀ _ : 16 ≤ m.length, (s2vLast d m).length = m.length ∧
      (s2vLast d m).take (m.length - 16) = m.take (m.length - 16) ∧
      packBytes 128 ((s2vLast d m).drop (m.length - 16)) = packBytes 128 (m.drop (m.length - 16)) ^^^ d) ∧
    ∀ h : m.length ≤ 15, (s2vLast d m).length = 16 ∧ packBytes 128 (s2vLast d m) = dbl d ^^^ pad m h

/-- 43_siv_ctr R140: exactly bits 63 and 31 are cleared. -/
def Obligations.QMaskClearsTwoBits : Prop :=
  ∀ (s : Block) n, n < 128 → (qMask s).getLsbD n = (s.getLsbD n && decide (n ≠ 63) && decide (n ≠ 31))

/-- 43_siv_ctr R141, R142: the output has the data's length, and byte `16*j + i` is the data's byte xor byte `i` of
`E(k, C_j)`, where `C_j` is the masked seed with `j` added to its low 32 bits modulo 2^32. -/
def Obligations.SivCtrXorsTheKeystream : Prop :=
  ∀ (ek : Block → Block) (seed : Block) (data : ByteString), (sivCtr ek seed data).length = data.length ∧
    ∀ j i, i < 16 → 16 * j + i < data.length →
      (sivCtr ek seed data)[16 * j + i]? =
        some (data.getD (16 * j + i) 0 ^^^
          (ek ((qMask seed).extractLsb' 32 96 ++ ((qMask seed).extractLsb' 0 32 + BitVec.ofNat 32 j))).extractLsb'
            (120 - 8 * i) 8)

/-- 43_siv_ctr R143: the same operation deciphers. -/
def Obligations.SivCtrIsItsOwnInverse : Prop :=
  ∀ (ek : Block → Block) (seed : Block) (data : ByteString), sivCtr ek seed (sivCtr ek seed data) = data

/-- 43_siv_ctr R144: no counter block a message of the core can reach wraps, and a 64-bit or a 128-bit increment would
give the same blocks. -/
def Obligations.CounterNeverWraps : Prop :=
  ∀ (cfg : Config) (seed : Block),
    cfg.bufCap / 16 ≤ 2 ^ 24 ∧ ((qMask seed).extractLsb' 0 32).toNat ≤ 0x7FFFFFFF ∧
    ∀ j, j < cfg.bufCap / 16 →
      ((counterBlock (qMask seed) j).extractLsb' 0 32).toNat = ((qMask seed).extractLsb' 0 32).toNat + j ∧
      ((qMask seed).extractLsb' 0 32).toNat + j < 2 ^ 31 + 2 ^ 24 ∧
      counterBlock (qMask seed) j =
        (qMask seed).extractLsb' 32 96 ++ ((qMask seed).extractLsb' 0 32 + BitVec.ofNat 32 j) ∧
      counterBlock (qMask seed) j =
        (qMask seed).extractLsb' 64 64 ++ ((qMask seed).extractLsb' 0 64 + BitVec.ofNat 64 j) ∧
      counterBlock (qMask seed) j = qMask seed + BitVec.ofNat 128 j

/-- 44_comparator R151: the comparator is equality of blocks. -/
def Obligations.ComparatorIsEquality : Prop := ∀ a b : Block, ctEq a b = true ↔ a = b

/-! ## Invariants -/

/-- 10_state R36 at reset. -/
def Obligations.ResetMeetsTheInvariant : Prop := Inv Config.chip State.reset

/-- 10_state R36: from every state that meets the invariant, whatever the host does next, a step leads to one that does. -/
def Obligations.StepKeepsTheInvariant : Prop :=
  ∀ s t, Inv Config.chip s → step s = .next t → Inv Config.chip t

/-- 20_memory R58: where MSGPUSH is accepted, its append address is a multiple of 16. -/
def Obligations.AppendAddressIsAligned : Prop :=
  ∀ (nbytes : Fin 17) w s t, Inv Config.chip s → exec (.msgpush nbytes w) s = .next t → t.rsps = s.rsps ++ [⟨.ok, 0⟩] →
    s.ilen % 16 = 0

/-! ## Rules of the whole machine -/

/-- 70_reset_and_hazards R242, 10_state R24: the installed keys and subkeys change only by a reset event, by ZEROIZE, or by
a KEYINIT that responds OK. -/
def Obligations.InstalledKeyChangesOnlyByKeyCommands : Prop :=
  ∀ s t, step s = .next t → KeysKept s t ∨ (∃ rest, s.inbox = .reset :: rest) ∨
    ∃ c rest, s.inbox = .command c :: rest ∧
      (decodeRecord c = .ok .zeroize ∨
        ∃ klen, decodeRecord c = .ok (.keyinit klen) ∧ s.phase = .unkeyed ∧ t.rsps = s.rsps ++ [⟨.ok, 0⟩])

/-- 60_exceptions R222: a result in `obuf` is the old one, or comes from an ENCRYPT, or from a DECRYPT whose tag
verified. -/
def Obligations.OutputComesOnlyFromEncryptOrVerifiedDecrypt : Prop :=
  ∀ s t, step s = .next t → t.obuf = [] ∨ t.obuf = s.obuf ∨
    ∃ c rest, s.inbox = .command c :: rest ∧ s.phase = .collect ∧
      ((decodeRecord c = .ok .encrypt ∧ t.obuf = encryptOutput Config.chip s) ∨
        (decodeRecord c = .ok .decrypt ∧ t.obuf = candidate Config.chip s ∧
          sivOf Config.chip s t.obuf = packBytes 128 (s.ibuf.take 16)))

/-- 60_exceptions R221: two states the host cannot tell apart stay so under every event but ENCRYPT and DECRYPT, the two
commands whose results may be computed from the secrets. -/
def Obligations.HostCannotSeeTheSecrets : Prop :=
  ∀ s s' t t', SameView s s' → step s = .next t → step s' = .next t' →
    (∀ c rest, s.inbox = .command c :: rest → decodeRecord c ≠ .ok .encrypt ∧ decodeRecord c ≠ .ok .decrypt) →
    SameView t t'

/-- 60_exceptions R221, R222: what an ENCRYPT and a DECRYPT tell the host at once: ENCRYPT the same response and the same
STATUS in two states it cannot tell apart; DECRYPT no more than one of four codes, with no read data. -/
def Obligations.CryptographicCommandsRespondWithCodesOnly : Prop :=
  (∀ s s' t t', SameView s s' → exec .encrypt s = .next t → exec .encrypt s' = .next t' →
      t.rsps = t'.rsps ∧ statusWord t = statusWord t') ∧
    ∀ s t, exec .decrypt s = .next t →
      ∃ rc, t.rsps = s.rsps ++ [⟨rc, 0⟩] ∧ (rc = .ok ∨ rc = .proto ∨ rc = .envelope ∨ rc = .auth)

/-! ## Command sequences -/

/-- 70_reset_and_hazards R232, 00_scope R11: in UNKEYED the KEY sequence of a key of 32, 48 or 64 bytes installs its two
halves; every response is OK. -/
def Obligations.KeySequenceInstallsTheKey : Prop :=
  ∀ s (key : ByteString) (fits : key.length ≤ 64), Inv Config.chip s → s.phase = .unkeyed →
    (key.length = 32 ∨ key.length = 48 ∨ key.length = 64) →
    ∃ t, Runs s (keySeq key fits) t ∧ t.rsps = s.rsps ++ oks (keySeq key fits).length ∧ t.phase = .ready ∧
      t.ksel.ksize = key.length / 2 ∧ topBytes t.ksel.ksize t.macKey = key.take (key.length / 2) ∧
      topBytes t.ksel.ksize t.ctrKey = key.drop (key.length / 2) ∧ Inv Config.chip t

/-- 42_s2v R134: BEGIN, then the beats of the components in order, whatever their unused bytes hold, with the beats of
the message placed anywhere among them, leaves `d` the chain value of R133 and `ibuf` the message, and
`s2v_final(d, M) = s2v(mac_key, [A_1, ..., A_m, M])`. -/
def Obligations.InterleavedBeatsFoldToS2v : Prop :=
  ∀ s ads m (is : List Instr), Inv Config.chip s → (s.phase = .ready ∨ s.phase = .done) →
    m.length ≤ Config.chip.bufCap →
    (is.map zeroFilled).filter isAdpush = ads.flatMap adSeq →
    (is.map zeroFilled).filter (fun i => !isAdpush i) = msgSeq m →
    ∃ t, Runs s (.begin :: is) t ∧ t.rsps = s.rsps ++ oks (is.length + 1) ∧ t.phase = .collect ∧ t.adOpen = false ∧
      t.ibuf = m ∧ t.d = s2vChain (macE Config.chip s) ads ∧
      sivOf Config.chip t m = s2v (macE Config.chip s) ads m ∧ KeysKept s t

/-- 46_commands_transaction R177: the encryption transaction. -/
def Obligations.EncryptTransactionIsSivEncrypt : Prop :=
  ∀ s ads p, Inv Config.chip s → (s.phase = .ready ∨ s.phase = .done) → p.length + 16 ≤ Config.chip.bufCap →
    ∃ t siv, Runs s (encryptSeq ads p) t ∧ t.rsps = s.rsps ++ oks (encryptSeq ads p).length ∧ t.phase = .done ∧
      siv = s2v (macE Config.chip s) ads p ∧ t.obuf = topBytes 16 siv ++ sivCtr (ctrE Config.chip s) siv p ∧
      t.olen = 16 + p.length ∧ KeysKept s t

/-- 46_commands_transaction R178: the decryption transaction, with its three endings. -/
def Obligations.DecryptTransactionIsSivDecrypt : Prop :=
  ∀ s ads v, Inv Config.chip s → (s.phase = .ready ∨ s.phase = .done) → v.length ≤ Config.chip.bufCap →
    let n := (decryptSeq ads v).length
    let siv := packBytes 128 (v.take 16)
    let pt := sivCtr (ctrE Config.chip s) siv (v.drop 16)
    ∃ t, Runs s (decryptSeq ads v) t ∧
      (v.length < 16 → t.rsps = s.rsps ++ oks (n - 1) ++ [⟨.envelope, 0⟩]) ∧
      (16 ≤ v.length → s2v (macE Config.chip s) ads pt = siv →
        t.rsps = s.rsps ++ oks n ∧ t.obuf = pt ∧ t.olen = v.length - 16 ∧ t.phase = .done) ∧
      (16 ≤ v.length → s2v (macE Config.chip s) ads pt ≠ siv →
        t.rsps = s.rsps ++ oks (n - 1) ++ [⟨.auth, 0⟩] ∧ t.olen = 0 ∧ t.phase = .ready)

/-- 46_commands_transaction R179 (a): decrypting the envelope an encryption left, with the same key and components, gives the
plaintext back, for every block cipher. -/
def Obligations.DecryptTransactionInvertsEncrypt : Prop :=
  ∀ s ads p t, Inv Config.chip s → (s.phase = .ready ∨ s.phase = .done) → p.length + 16 ≤ Config.chip.bufCap →
    Runs s (encryptSeq ads p) t →
    ∃ u, Runs t (decryptSeq ads t.obuf) u ∧ u.rsps = t.rsps ++ oks (decryptSeq ads t.obuf).length ∧ u.obuf = p ∧
      u.phase = .done

/-- 30_encoding R93, 46_commands_transaction R175: in DONE the OUT sequence of the result's length reads the whole result
and changes no state. -/
def Obligations.OutSequenceReadsTheResult : Prop :=
  ∀ s, s.phase = .done → s.olen ≤ Config.chip.bufCap →
    ∃ out, Runs s (outSeq s.olen) { s with inbox := [], rsps := s.rsps ++ out } ∧ ReadsBack out s.obuf

/-- 00_scope R11, second row: the encryption operation, OUTRD of each output block included, hands the document's envelope
to the host; the result stays. -/
def Obligations.EncryptOperationReturnsTheEnvelope : Prop :=
  ∀ s ads p siv, Inv Config.chip s → (s.phase = .ready ∨ s.phase = .done) → p.length + 16 ≤ Config.chip.bufCap →
    siv = s2v (macE Config.chip s) ads p →
    ∃ t out, Runs s (encryptOperation ads p) t ∧ t.rsps = s.rsps ++ oks (encryptSeq ads p).length ++ out ∧
      ReadsBack out (topBytes 16 siv ++ sivCtr (ctrE Config.chip s) siv p) ∧
      t.phase = .done ∧ t.obuf = topBytes 16 siv ++ sivCtr (ctrE Config.chip s) siv p ∧ KeysKept s t

/-- 00_scope R11, third row: the decryption operation hands the plaintext to the host where the tag verifies; where it does
not, or the envelope is too short, the last response is the failure and there is no output block to read (log 18). -/
def Obligations.DecryptOperationReturnsThePlaintext : Prop :=
  ∀ s ads v siv pt, Inv Config.chip s → (s.phase = .ready ∨ s.phase = .done) → v.length ≤ Config.chip.bufCap →
    siv = packBytes 128 (v.take 16) → pt = sivCtr (ctrE Config.chip s) siv (v.drop 16) →
    (16 ≤ v.length → s2v (macE Config.chip s) ads pt = siv →
      ∃ t out, Runs s (decryptOperation ads v true) t ∧ t.rsps = s.rsps ++ oks (decryptSeq ads v).length ++ out ∧
        ReadsBack out pt ∧ t.phase = .done ∧ t.obuf = pt ∧ KeysKept s t) ∧
    (v.length < 16 ∨ s2v (macE Config.chip s) ads pt ≠ siv →
      ∃ t code, Runs s (decryptOperation ads v false) t ∧ code = (if v.length < 16 then .envelope else .auth) ∧
        t.rsps = s.rsps ++ oks ((decryptSeq ads v).length - 1) ++ [⟨code, 0⟩] ∧
        t.phase = .ready ∧ t.obuf = [] ∧ KeysKept s t)
end

