-- ==== Sys2Proof/Laws/Bytes.lean ====
section
/-! SUPPORT. Laws of the byte order: lengths, and packing and unpacking are inverse (00_scope R13, R14). -/

namespace Sys2Proof.Machine

/-! ## `natOfBytes` -/

theorem natOfBytes_foldl (s : ByteString) (n : Nat) :
    s.foldl (fun n b => n * 256 + b.toNat) n = n * 256 ^ s.length + natOfBytes s := by
  induction s generalizing n with
  | nil => simp [natOfBytes]
  | cons b s ih =>
    have hb : natOfBytes (b :: s) = (0 * 256 + b.toNat) * 256 ^ s.length + natOfBytes s := ih (0 * 256 + b.toNat)
    rw [List.foldl_cons, ih, hb, List.length_cons]
    ring

@[simp] theorem natOfBytes_nil : natOfBytes [] = 0 := rfl

theorem natOfBytes_append (a b : ByteString) :
    natOfBytes (a ++ b) = natOfBytes a * 256 ^ b.length + natOfBytes b := by
  rw [natOfBytes, List.foldl_append, natOfBytes_foldl b]; rfl

theorem natOfBytes_cons (x : Byte) (s : ByteString) :
    natOfBytes (x :: s) = x.toNat * 256 ^ s.length + natOfBytes s := by
  have h := natOfBytes_append [x] s
  simpa [natOfBytes] using h

@[simp] theorem natOfBytes_zeros (n : Nat) : natOfBytes (zeros n) = 0 := by
  induction n with
  | zero => rfl
  | succ n ih => simp only [zeros] at ih; simp [zeros, List.replicate_succ, natOfBytes_cons, ih]

theorem natOfBytes_lt (s : ByteString) : natOfBytes s < 256 ^ s.length := by
  induction s with
  | nil => simp
  | cons x s ih =>
    have hx := x.isLt
    rw [natOfBytes_cons, List.length_cons, Nat.pow_succ]
    nlinarith

/-- Byte `i` of a big-endian number. -/
theorem natOfBytes_byte (s : ByteString) (i : Nat) (h : i < s.length) :
    natOfBytes s / 256 ^ (s.length - 1 - i) % 256 = (s[i]).toNat := by
  have hs : s = s.take i ++ s[i] :: s.drop (i + 1) := by simp
  have hl : (s.drop (i + 1)).length = s.length - 1 - i := by simp; omega
  have hC := natOfBytes_lt (s.drop (i + 1))
  rw [hl] at hC
  have hb := (s[i]).isLt
  have hn : natOfBytes s =
      natOfBytes (s.drop (i + 1)) + 256 ^ (s.length - 1 - i) * (natOfBytes (s.take i) * 256 + (s[i]).toNat) := by
    conv => lhs; rw [hs]
    rw [natOfBytes_append, natOfBytes_cons, List.length_cons, hl, Nat.pow_succ]
    ring
  rw [hn, Nat.add_mul_div_left _ _ (by positivity), Nat.div_eq_of_lt hC]
  omega

/-! ## `topBytes` -/

@[simp] theorem topBytes_length (n : Nat) {w : Nat} (v : BitVec w) : (topBytes n v).length = n := by simp [topBytes]

theorem topBytes_getElem (n : Nat) {w : Nat} (v : BitVec w) (i : Nat) (h : i < (topBytes n v).length) :
    (topBytes n v)[i] = v.extractLsb' (w - 8 * (i + 1)) 8 := by simp [topBytes]

@[simp] theorem topBytes_zero_length {w : Nat} (v : BitVec w) : topBytes 0 v = [] := rfl

theorem topBytes_succ (n : Nat) {w : Nat} (v : BitVec w) :
    topBytes (n + 1) v = topBytes n v ++ [v.extractLsb' (w - 8 * (n + 1)) 8] := by
  simp [topBytes, List.range_succ]

theorem topBytes_take (n k : Nat) {w : Nat} (v : BitVec w) : (topBytes n v).take k = topBytes (min k n) v := by
  simp [topBytes, ← List.map_take, List.take_range]

/-- The first `n` bytes as a number: the top `8 * n` bits. -/
theorem natOfBytes_topBytes (n : Nat) {w : Nat} (v : BitVec w) (h : 8 * n ≤ w) :
    natOfBytes (topBytes n v) = v.toNat / 2 ^ (w - 8 * n) := by
  induction n with
  | zero => simp [Nat.div_eq_of_lt v.isLt]
  | succ n ih =>
    have e : 2 ^ (w - 8 * n) = 2 ^ (w - 8 * (n + 1)) * 256 := by
      rw [show w - 8 * n = (w - 8 * (n + 1)) + 8 by omega, Nat.pow_add]
    have hx : natOfBytes [v.extractLsb' (w - 8 * (n + 1)) 8] = v.toNat / 2 ^ (w - 8 * (n + 1)) % 256 := by
      simp [natOfBytes_cons, Nat.shiftRight_eq_div_pow]
    rw [topBytes_succ, natOfBytes_append, ih (by omega), hx, e, ← Nat.div_div_eq_div_mul]
    simp only [List.length_singleton, Nat.pow_one]
    omega

/-! ## `packBytes` -/

theorem packBytes_toNat (w : Nat) (s : ByteString) (h : 8 * s.length ≤ w) :
    (packBytes w s).toNat = natOfBytes s * 2 ^ (w - 8 * s.length) := by
  have hs := natOfBytes_lt s
  have e : 2 ^ w = 256 ^ s.length * 2 ^ (w - 8 * s.length) := by
    rw [show (256 : Nat) = 2 ^ 8 by rfl, ← Nat.pow_mul, ← Nat.pow_add]
    congr 1; omega
  rw [packBytes, BitVec.toNat_ofNat, Nat.mod_eq_of_lt]
  rw [e]
  exact Nat.mul_lt_mul_of_pos_right hs (by positivity)

/-- Byte `i` of left-aligned bytes, inside the string. -/
theorem packBytes_byte (w : Nat) (s : ByteString) (h : 8 * s.length ≤ w) (i : Nat) (hi : i < s.length) :
    (packBytes w s).extractLsb' (w - 8 * (i + 1)) 8 = s[i] := by
  apply BitVec.eq_of_toNat_eq
  rw [← natOfBytes_byte s i hi, BitVec.extractLsb'_toNat, packBytes_toNat w s h, Nat.shiftRight_eq_div_pow,
    show w - 8 * (i + 1) = (w - 8 * s.length) + 8 * (s.length - 1 - i) by omega, Nat.pow_add,
    ← Nat.div_div_eq_div_mul, Nat.mul_div_cancel _ (by positivity), Nat.pow_mul]

/-- Byte `i` of left-aligned bytes, beyond the string: zero. -/
theorem packBytes_byte_beyond (w : Nat) (s : ByteString) (h : 8 * s.length ≤ w) (i : Nat) (hi : s.length ≤ i)
    (hw : 8 * (i + 1) ≤ w) : (packBytes w s).extractLsb' (w - 8 * (i + 1)) 8 = 0 := by
  apply BitVec.eq_of_toNat_eq
  have e : 2 ^ (w - 8 * s.length) = 2 ^ (w - 8 * (i + 1)) * (256 * 2 ^ (8 * (i - s.length))) := by
    rw [show (256 : Nat) = 2 ^ 8 by rfl, ← Nat.pow_add, ← Nat.pow_add]
    congr 1; omega
  rw [BitVec.extractLsb'_toNat, packBytes_toNat w s h, Nat.shiftRight_eq_div_pow, e,
    show natOfBytes s * (2 ^ (w - 8 * (i + 1)) * (256 * 2 ^ (8 * (i - s.length)))) =
      2 ^ (w - 8 * (i + 1)) * (256 * (natOfBytes s * 2 ^ (8 * (i - s.length)))) by ring,
    Nat.mul_div_cancel_left _ (by positivity)]
  simp

/-- Unpacking left-aligned bytes gives them back, followed by zeros. -/
theorem topBytes_packBytes (w n : Nat) (s : ByteString) (hs : s.length ≤ n) (hn : 8 * n ≤ w) :
    topBytes n (packBytes w s) = s ++ zeros (n - s.length) := by
  apply List.ext_getElem
  · simp [zeros]; omega
  · intro i h1 h2
    rw [topBytes_length] at h1
    rw [topBytes_getElem]
    by_cases hi : i < s.length
    · rw [packBytes_byte w s (by omega) i hi, List.getElem_append_left hi]
    · rw [packBytes_byte_beyond w s (by omega) i (by omega) (by omega), List.getElem_append_right (by omega)]
      simp [zeros]

/-- The first `len(s)` bytes are `s`. -/
theorem topBytes_packBytes_self (w : Nat) (s : ByteString) (h : 8 * s.length ≤ w) :
    topBytes s.length (packBytes w s) = s := by
  have := topBytes_packBytes w s.length s (Nat.le_refl _) h
  simpa [zeros] using this

/-- A block is its sixteen bytes (00_scope R14). -/
theorem packBytes_topBytes (n : Nat) (v : BitVec (8 * n)) : packBytes (8 * n) (topBytes n v) = v := by
  apply BitVec.eq_of_toNat_eq
  rw [packBytes_toNat _ _ (by simp), natOfBytes_topBytes n v (Nat.le_refl _)]
  simp

@[simp] theorem packBytes_topBytes_block (b : Block) : packBytes 128 (topBytes 16 b) = b := packBytes_topBytes 16 b

theorem topBytes_injective (a b : Block) (h : topBytes 16 a = topBytes 16 b) : a = b := by
  rw [← packBytes_topBytes_block a, ← packBytes_topBytes_block b, h]

/-! ## `slice`, `memRead`, `xorBytes` -/

@[simp] theorem slice_length (s : ByteString) (a b : Nat) : (slice s a b).length = min b s.length - a := by
  simp [slice]

@[simp] theorem memRead_length (s : ByteString) (a n : Nat) : (memRead s a n).length = min (a + n) s.length - a := by
  simp [memRead]

@[simp] theorem memRead_all (s : ByteString) : memRead s 0 s.length = s := by simp [memRead, slice]

@[simp] theorem xorBytes_length (a b : ByteString) : (xorBytes a b).length = min a.length b.length := by
  simp [xorBytes]

/-- Xor with the same bytes twice gives the string back (00_scope R15). -/
theorem xorBytes_cancel (a k : ByteString) (h : a.length ≤ k.length) : xorBytes (xorBytes a k) k = a := by
  induction a generalizing k with
  | nil => simp [xorBytes]
  | cons x a ih =>
    cases k with
    | nil => simp at h
    | cons y k =>
      have := ih k (by simpa using h)
      simp only [xorBytes, List.zipWith_cons_cons] at this ⊢
      rw [this, BitVec.xor_assoc, BitVec.xor_self, BitVec.xor_zero]

/-- The bytes OUTRD hands over: those of the block, followed by zeros (46_commands_transaction R175). -/
theorem topBytes_resultBlock (buf : ByteString) (j : Nat) :
    topBytes 16 (resultBlock buf j) =
      slice buf (16 * j) (16 * j + 16) ++ zeros (16 - min 16 (buf.length - 16 * j)) := by
  have e : memRead buf (16 * j) (min 16 (buf.length - 16 * j)) = slice buf (16 * j) (16 * j + 16) := by
    rw [memRead, slice, slice, show buf.take (16 * j + min 16 (buf.length - 16 * j)) = buf.take (16 * j + 16) from
      List.take_eq_take_iff.2 (by omega)]
  have l : (slice buf (16 * j) (16 * j + 16)).length = min 16 (buf.length - 16 * j) := by rw [slice_length]; omega
  rw [resultBlock, e, topBytes_packBytes 128 16 _ (by omega) (by omega), l]

end Sys2Proof.Machine
end

