-- ==== Sys2Proof/Laws/Decode.lean ====
section
/-! SUPPORT. The records and fields of the encoding as numbers (30_encoding R70, R71, R73, R91), so that facts about a
field become arithmetic. -/

namespace Sys2Proof

theorem append_toNat_add {m n : Nat} (a : BitVec m) (b : BitVec n) : (a ++ b).toNat = a.toNat * 2 ^ n + b.toNat := by
  rw [BitVec.toNat_append, Nat.shiftLeft_eq, Nat.mul_comm, Nat.two_pow_add_eq_or_of_lt b.isLt]

theorem mkRecord_toNat (ctrl : BitVec 32) (data : Block) :
    (mkRecord ctrl data).toNat = ctrl.toNat * 2 ^ 128 + data.toNat := append_toNat_add ctrl data

@[simp] theorem ctrlOf_mkRecord (ctrl : BitVec 32) (data : Block) : ctrlOf (mkRecord ctrl data) = ctrl := by
  apply BitVec.eq_of_toNat_eq
  have h1 := ctrl.isLt
  have h2 := data.isLt
  rw [ctrlOf, BitVec.extractLsb'_toNat, mkRecord_toNat, Nat.shiftRight_eq_div_pow]
  omega

@[simp] theorem dataOf_mkRecord (ctrl : BitVec 32) (data : Block) : dataOf (mkRecord ctrl data) = data := by
  apply BitVec.eq_of_toNat_eq
  have h2 := data.isLt
  rw [dataOf, BitVec.extractLsb'_toNat, mkRecord_toNat, Nat.shiftRight_zero]
  omega

theorem decodeRecord_mkRecord (ctrl : BitVec 32) (data : Block) :
    decodeRecord (mkRecord ctrl data) = decode ctrl data := by simp [decodeRecord]

theorem encodeCtrl_toNat (i : Instr) :
    (encodeCtrl i).toNat = (opcodeByte i).toNat * 2 ^ 24 + (argField i).toNat := append_toNat_add _ _

/-- A field of the control word as a number. -/
theorem field_toNat (ctrl : BitVec 32) (lo len : Nat) :
    (ctrl.extractLsb' lo len).toNat = ctrl.toNat / 2 ^ lo % 2 ^ len := by
  rw [BitVec.extractLsb'_toNat, Nat.shiftRight_eq_div_pow]

/-- A field is zero exactly when its number is. -/
theorem field_eq_zero (ctrl : BitVec 32) (lo len : Nat) :
    ctrl.extractLsb' lo len = 0 ↔ ctrl.toNat / 2 ^ lo % 2 ^ len = 0 := by
  rw [← field_toNat, ← BitVec.toNat_inj]; simp

/-- One bit of the control word as a number. -/
theorem bit_eq (ctrl : BitVec 32) (n : Nat) : ctrl.getLsbD n = decide (ctrl.toNat / 2 ^ n % 2 = 1) := by
  rw [BitVec.getLsbD, Nat.testBit_eq_decide_div_mod_eq]

/-- The decoder sees the operation code as a number below 256. -/
theorem decode_op (ctrl : BitVec 32) : (ctrl.extractLsb' 24 8).toNat = ctrl.toNat / 2 ^ 24 := by
  rw [field_toNat]; have := ctrl.isLt; omega

/-- The decoder on a control word whose operation code is known. -/
theorem decode_of_op {ctrl : BitVec 32} {op : Nat} (h : ctrl.toNat / 2 ^ 24 = op) (data : Block) :
    decode ctrl data = decodeOp op ctrl data := by rw [decode, decode_op, h]

end Sys2Proof
end

