-- ==== Sys2Proof/Laws/State.lean ====
section
/-! SUPPORT. One lemma per field per update of the state: what the update leaves in the field. -/

namespace Sys2Proof.Machine

variable (s : State)

/-! ### dropInstance -/

@[simp] theorem State.dropInstance_phase : s.dropInstance.phase = .unkeyed := rfl
@[simp] theorem State.dropInstance_ksel : s.dropInstance.ksel = .none := rfl
@[simp] theorem State.dropInstance_kw : s.dropInstance.kw = #v[0, 0, 0, 0] := rfl
@[simp] theorem State.dropInstance_kwValid : s.dropInstance.kwValid = 0 := rfl
@[simp] theorem State.dropInstance_macKey : s.dropInstance.macKey = 0 := rfl
@[simp] theorem State.dropInstance_ctrKey : s.dropInstance.ctrKey = 0 := rfl
@[simp] theorem State.dropInstance_k1 : s.dropInstance.k1 = 0 := rfl
@[simp] theorem State.dropInstance_k2 : s.dropInstance.k2 = 0 := rfl
@[simp] theorem State.dropInstance_d : s.dropInstance.d = 0 := rfl
@[simp] theorem State.dropInstance_cmacX : s.dropInstance.cmacX = 0 := rfl
@[simp] theorem State.dropInstance_adOpen : s.dropInstance.adOpen = false := rfl
@[simp] theorem State.dropInstance_msgClosed : s.dropInstance.msgClosed = false := rfl
@[simp] theorem State.dropInstance_ibuf : s.dropInstance.ibuf = [] := rfl
@[simp] theorem State.dropInstance_obuf : s.dropInstance.obuf = [] := rfl
@[simp] theorem State.dropInstance_err : s.dropInstance.err = .ok := rfl
@[simp] theorem State.dropInstance_inbox : s.dropInstance.inbox = s.inbox := rfl
@[simp] theorem State.dropInstance_rsps : s.dropInstance.rsps = s.rsps := rfl

/-! ### abort -/

@[simp] theorem State.abort_phase (code : RespCode) : (s.abort code).phase = if s.ksel = .none then .unkeyed else .ready := rfl
@[simp] theorem State.abort_ksel (code : RespCode) : (s.abort code).ksel = s.ksel := rfl
@[simp] theorem State.abort_kw (code : RespCode) : (s.abort code).kw = #v[0, 0, 0, 0] := rfl
@[simp] theorem State.abort_kwValid (code : RespCode) : (s.abort code).kwValid = 0 := rfl
@[simp] theorem State.abort_macKey (code : RespCode) : (s.abort code).macKey = s.macKey := rfl
@[simp] theorem State.abort_ctrKey (code : RespCode) : (s.abort code).ctrKey = s.ctrKey := rfl
@[simp] theorem State.abort_k1 (code : RespCode) : (s.abort code).k1 = s.k1 := rfl
@[simp] theorem State.abort_k2 (code : RespCode) : (s.abort code).k2 = s.k2 := rfl
@[simp] theorem State.abort_d (code : RespCode) : (s.abort code).d = 0 := rfl
@[simp] theorem State.abort_cmacX (code : RespCode) : (s.abort code).cmacX = 0 := rfl
@[simp] theorem State.abort_adOpen (code : RespCode) : (s.abort code).adOpen = false := rfl
@[simp] theorem State.abort_msgClosed (code : RespCode) : (s.abort code).msgClosed = false := rfl
@[simp] theorem State.abort_ibuf (code : RespCode) : (s.abort code).ibuf = [] := rfl
@[simp] theorem State.abort_obuf (code : RespCode) : (s.abort code).obuf = [] := rfl
@[simp] theorem State.abort_err (code : RespCode) : (s.abort code).err = code := rfl
@[simp] theorem State.abort_inbox (code : RespCode) : (s.abort code).inbox = s.inbox := rfl
@[simp] theorem State.abort_rsps (code : RespCode) : (s.abort code).rsps = s.rsps := rfl

/-! ### writeKeyWord -/

@[simp] theorem State.writeKeyWord_phase (idx : Fin 4) (data : Block) : (s.writeKeyWord idx data).phase = s.phase := rfl
@[simp] theorem State.writeKeyWord_ksel (idx : Fin 4) (data : Block) : (s.writeKeyWord idx data).ksel = s.ksel := rfl
@[simp] theorem State.writeKeyWord_kw (idx : Fin 4) (data : Block) : (s.writeKeyWord idx data).kw = s.kw.set idx.val data := rfl
@[simp] theorem State.writeKeyWord_kwValid (idx : Fin 4) (data : Block) : (s.writeKeyWord idx data).kwValid = s.kwValid ||| (1#4 <<< idx.val) := rfl
@[simp] theorem State.writeKeyWord_macKey (idx : Fin 4) (data : Block) : (s.writeKeyWord idx data).macKey = s.macKey := rfl
@[simp] theorem State.writeKeyWord_ctrKey (idx : Fin 4) (data : Block) : (s.writeKeyWord idx data).ctrKey = s.ctrKey := rfl
@[simp] theorem State.writeKeyWord_k1 (idx : Fin 4) (data : Block) : (s.writeKeyWord idx data).k1 = s.k1 := rfl
@[simp] theorem State.writeKeyWord_k2 (idx : Fin 4) (data : Block) : (s.writeKeyWord idx data).k2 = s.k2 := rfl
@[simp] theorem State.writeKeyWord_d (idx : Fin 4) (data : Block) : (s.writeKeyWord idx data).d = s.d := rfl
@[simp] theorem State.writeKeyWord_cmacX (idx : Fin 4) (data : Block) : (s.writeKeyWord idx data).cmacX = s.cmacX := rfl
@[simp] theorem State.writeKeyWord_adOpen (idx : Fin 4) (data : Block) : (s.writeKeyWord idx data).adOpen = s.adOpen := rfl
@[simp] theorem State.writeKeyWord_msgClosed (idx : Fin 4) (data : Block) : (s.writeKeyWord idx data).msgClosed = s.msgClosed := rfl
@[simp] theorem State.writeKeyWord_ibuf (idx : Fin 4) (data : Block) : (s.writeKeyWord idx data).ibuf = s.ibuf := rfl
@[simp] theorem State.writeKeyWord_obuf (idx : Fin 4) (data : Block) : (s.writeKeyWord idx data).obuf = s.obuf := rfl
@[simp] theorem State.writeKeyWord_err (idx : Fin 4) (data : Block) : (s.writeKeyWord idx data).err = s.err := rfl
@[simp] theorem State.writeKeyWord_inbox (idx : Fin 4) (data : Block) : (s.writeKeyWord idx data).inbox = s.inbox := rfl
@[simp] theorem State.writeKeyWord_rsps (idx : Fin 4) (data : Block) : (s.writeKeyWord idx data).rsps = s.rsps := rfl

/-! ### installKey -/

@[simp] theorem State.installKey_phase (sel : KSel) (mac : ByteString) (ctr : ByteString) (subs : Block × Block) : (s.installKey sel mac ctr subs).phase = .ready := rfl
@[simp] theorem State.installKey_ksel (sel : KSel) (mac : ByteString) (ctr : ByteString) (subs : Block × Block) : (s.installKey sel mac ctr subs).ksel = sel := rfl
@[simp] theorem State.installKey_kw (sel : KSel) (mac : ByteString) (ctr : ByteString) (subs : Block × Block) : (s.installKey sel mac ctr subs).kw = #v[0, 0, 0, 0] := rfl
@[simp] theorem State.installKey_kwValid (sel : KSel) (mac : ByteString) (ctr : ByteString) (subs : Block × Block) : (s.installKey sel mac ctr subs).kwValid = 0 := rfl
@[simp] theorem State.installKey_macKey (sel : KSel) (mac : ByteString) (ctr : ByteString) (subs : Block × Block) : (s.installKey sel mac ctr subs).macKey = packBytes 256 mac := rfl
@[simp] theorem State.installKey_ctrKey (sel : KSel) (mac : ByteString) (ctr : ByteString) (subs : Block × Block) : (s.installKey sel mac ctr subs).ctrKey = packBytes 256 ctr := rfl
@[simp] theorem State.installKey_k1 (sel : KSel) (mac : ByteString) (ctr : ByteString) (subs : Block × Block) : (s.installKey sel mac ctr subs).k1 = subs.1 := rfl
@[simp] theorem State.installKey_k2 (sel : KSel) (mac : ByteString) (ctr : ByteString) (subs : Block × Block) : (s.installKey sel mac ctr subs).k2 = subs.2 := rfl
@[simp] theorem State.installKey_d (sel : KSel) (mac : ByteString) (ctr : ByteString) (subs : Block × Block) : (s.installKey sel mac ctr subs).d = s.d := rfl
@[simp] theorem State.installKey_cmacX (sel : KSel) (mac : ByteString) (ctr : ByteString) (subs : Block × Block) : (s.installKey sel mac ctr subs).cmacX = s.cmacX := rfl
@[simp] theorem State.installKey_adOpen (sel : KSel) (mac : ByteString) (ctr : ByteString) (subs : Block × Block) : (s.installKey sel mac ctr subs).adOpen = s.adOpen := rfl
@[simp] theorem State.installKey_msgClosed (sel : KSel) (mac : ByteString) (ctr : ByteString) (subs : Block × Block) : (s.installKey sel mac ctr subs).msgClosed = s.msgClosed := rfl
@[simp] theorem State.installKey_ibuf (sel : KSel) (mac : ByteString) (ctr : ByteString) (subs : Block × Block) : (s.installKey sel mac ctr subs).ibuf = s.ibuf := rfl
@[simp] theorem State.installKey_obuf (sel : KSel) (mac : ByteString) (ctr : ByteString) (subs : Block × Block) : (s.installKey sel mac ctr subs).obuf = s.obuf := rfl
@[simp] theorem State.installKey_err (sel : KSel) (mac : ByteString) (ctr : ByteString) (subs : Block × Block) : (s.installKey sel mac ctr subs).err = .ok := rfl
@[simp] theorem State.installKey_inbox (sel : KSel) (mac : ByteString) (ctr : ByteString) (subs : Block × Block) : (s.installKey sel mac ctr subs).inbox = s.inbox := rfl
@[simp] theorem State.installKey_rsps (sel : KSel) (mac : ByteString) (ctr : ByteString) (subs : Block × Block) : (s.installKey sel mac ctr subs).rsps = s.rsps := rfl

/-! ### openTransaction -/

@[simp] theorem State.openTransaction_phase (d0 : Block) : (s.openTransaction d0).phase = .collect := rfl
@[simp] theorem State.openTransaction_ksel (d0 : Block) : (s.openTransaction d0).ksel = s.ksel := rfl
@[simp] theorem State.openTransaction_kw (d0 : Block) : (s.openTransaction d0).kw = s.kw := rfl
@[simp] theorem State.openTransaction_kwValid (d0 : Block) : (s.openTransaction d0).kwValid = s.kwValid := rfl
@[simp] theorem State.openTransaction_macKey (d0 : Block) : (s.openTransaction d0).macKey = s.macKey := rfl
@[simp] theorem State.openTransaction_ctrKey (d0 : Block) : (s.openTransaction d0).ctrKey = s.ctrKey := rfl
@[simp] theorem State.openTransaction_k1 (d0 : Block) : (s.openTransaction d0).k1 = s.k1 := rfl
@[simp] theorem State.openTransaction_k2 (d0 : Block) : (s.openTransaction d0).k2 = s.k2 := rfl
@[simp] theorem State.openTransaction_d (d0 : Block) : (s.openTransaction d0).d = d0 := rfl
@[simp] theorem State.openTransaction_cmacX (d0 : Block) : (s.openTransaction d0).cmacX = 0 := rfl
@[simp] theorem State.openTransaction_adOpen (d0 : Block) : (s.openTransaction d0).adOpen = false := rfl
@[simp] theorem State.openTransaction_msgClosed (d0 : Block) : (s.openTransaction d0).msgClosed = false := rfl
@[simp] theorem State.openTransaction_ibuf (d0 : Block) : (s.openTransaction d0).ibuf = [] := rfl
@[simp] theorem State.openTransaction_obuf (d0 : Block) : (s.openTransaction d0).obuf = [] := rfl
@[simp] theorem State.openTransaction_err (d0 : Block) : (s.openTransaction d0).err = .ok := rfl
@[simp] theorem State.openTransaction_inbox (d0 : Block) : (s.openTransaction d0).inbox = s.inbox := rfl
@[simp] theorem State.openTransaction_rsps (d0 : Block) : (s.openTransaction d0).rsps = s.rsps := rfl

/-! ### absorbBeat -/

@[simp] theorem State.absorbBeat_phase (x : Block) : (s.absorbBeat x).phase = s.phase := rfl
@[simp] theorem State.absorbBeat_ksel (x : Block) : (s.absorbBeat x).ksel = s.ksel := rfl
@[simp] theorem State.absorbBeat_kw (x : Block) : (s.absorbBeat x).kw = s.kw := rfl
@[simp] theorem State.absorbBeat_kwValid (x : Block) : (s.absorbBeat x).kwValid = s.kwValid := rfl
@[simp] theorem State.absorbBeat_macKey (x : Block) : (s.absorbBeat x).macKey = s.macKey := rfl
@[simp] theorem State.absorbBeat_ctrKey (x : Block) : (s.absorbBeat x).ctrKey = s.ctrKey := rfl
@[simp] theorem State.absorbBeat_k1 (x : Block) : (s.absorbBeat x).k1 = s.k1 := rfl
@[simp] theorem State.absorbBeat_k2 (x : Block) : (s.absorbBeat x).k2 = s.k2 := rfl
@[simp] theorem State.absorbBeat_d (x : Block) : (s.absorbBeat x).d = s.d := rfl
@[simp] theorem State.absorbBeat_cmacX (x : Block) : (s.absorbBeat x).cmacX = x := rfl
@[simp] theorem State.absorbBeat_adOpen (x : Block) : (s.absorbBeat x).adOpen = true := rfl
@[simp] theorem State.absorbBeat_msgClosed (x : Block) : (s.absorbBeat x).msgClosed = s.msgClosed := rfl
@[simp] theorem State.absorbBeat_ibuf (x : Block) : (s.absorbBeat x).ibuf = s.ibuf := rfl
@[simp] theorem State.absorbBeat_obuf (x : Block) : (s.absorbBeat x).obuf = s.obuf := rfl
@[simp] theorem State.absorbBeat_err (x : Block) : (s.absorbBeat x).err = s.err := rfl
@[simp] theorem State.absorbBeat_inbox (x : Block) : (s.absorbBeat x).inbox = s.inbox := rfl
@[simp] theorem State.absorbBeat_rsps (x : Block) : (s.absorbBeat x).rsps = s.rsps := rfl

/-! ### closeComponent -/

@[simp] theorem State.closeComponent_phase (d' : Block) : (s.closeComponent d').phase = s.phase := rfl
@[simp] theorem State.closeComponent_ksel (d' : Block) : (s.closeComponent d').ksel = s.ksel := rfl
@[simp] theorem State.closeComponent_kw (d' : Block) : (s.closeComponent d').kw = s.kw := rfl
@[simp] theorem State.closeComponent_kwValid (d' : Block) : (s.closeComponent d').kwValid = s.kwValid := rfl
@[simp] theorem State.closeComponent_macKey (d' : Block) : (s.closeComponent d').macKey = s.macKey := rfl
@[simp] theorem State.closeComponent_ctrKey (d' : Block) : (s.closeComponent d').ctrKey = s.ctrKey := rfl
@[simp] theorem State.closeComponent_k1 (d' : Block) : (s.closeComponent d').k1 = s.k1 := rfl
@[simp] theorem State.closeComponent_k2 (d' : Block) : (s.closeComponent d').k2 = s.k2 := rfl
@[simp] theorem State.closeComponent_d (d' : Block) : (s.closeComponent d').d = d' := rfl
@[simp] theorem State.closeComponent_cmacX (d' : Block) : (s.closeComponent d').cmacX = 0 := rfl
@[simp] theorem State.closeComponent_adOpen (d' : Block) : (s.closeComponent d').adOpen = false := rfl
@[simp] theorem State.closeComponent_msgClosed (d' : Block) : (s.closeComponent d').msgClosed = s.msgClosed := rfl
@[simp] theorem State.closeComponent_ibuf (d' : Block) : (s.closeComponent d').ibuf = s.ibuf := rfl
@[simp] theorem State.closeComponent_obuf (d' : Block) : (s.closeComponent d').obuf = s.obuf := rfl
@[simp] theorem State.closeComponent_err (d' : Block) : (s.closeComponent d').err = s.err := rfl
@[simp] theorem State.closeComponent_inbox (d' : Block) : (s.closeComponent d').inbox = s.inbox := rfl
@[simp] theorem State.closeComponent_rsps (d' : Block) : (s.closeComponent d').rsps = s.rsps := rfl

/-! ### appendMessage -/

@[simp] theorem State.appendMessage_phase (v : ByteString) (part : Bool) : (s.appendMessage v part).phase = s.phase := rfl
@[simp] theorem State.appendMessage_ksel (v : ByteString) (part : Bool) : (s.appendMessage v part).ksel = s.ksel := rfl
@[simp] theorem State.appendMessage_kw (v : ByteString) (part : Bool) : (s.appendMessage v part).kw = s.kw := rfl
@[simp] theorem State.appendMessage_kwValid (v : ByteString) (part : Bool) : (s.appendMessage v part).kwValid = s.kwValid := rfl
@[simp] theorem State.appendMessage_macKey (v : ByteString) (part : Bool) : (s.appendMessage v part).macKey = s.macKey := rfl
@[simp] theorem State.appendMessage_ctrKey (v : ByteString) (part : Bool) : (s.appendMessage v part).ctrKey = s.ctrKey := rfl
@[simp] theorem State.appendMessage_k1 (v : ByteString) (part : Bool) : (s.appendMessage v part).k1 = s.k1 := rfl
@[simp] theorem State.appendMessage_k2 (v : ByteString) (part : Bool) : (s.appendMessage v part).k2 = s.k2 := rfl
@[simp] theorem State.appendMessage_d (v : ByteString) (part : Bool) : (s.appendMessage v part).d = s.d := rfl
@[simp] theorem State.appendMessage_cmacX (v : ByteString) (part : Bool) : (s.appendMessage v part).cmacX = s.cmacX := rfl
@[simp] theorem State.appendMessage_adOpen (v : ByteString) (part : Bool) : (s.appendMessage v part).adOpen = s.adOpen := rfl
@[simp] theorem State.appendMessage_msgClosed (v : ByteString) (part : Bool) : (s.appendMessage v part).msgClosed = (s.msgClosed || part) := rfl
@[simp] theorem State.appendMessage_ibuf (v : ByteString) (part : Bool) : (s.appendMessage v part).ibuf = memWrite s.ibuf s.ilen v := rfl
@[simp] theorem State.appendMessage_obuf (v : ByteString) (part : Bool) : (s.appendMessage v part).obuf = s.obuf := rfl
@[simp] theorem State.appendMessage_err (v : ByteString) (part : Bool) : (s.appendMessage v part).err = s.err := rfl
@[simp] theorem State.appendMessage_inbox (v : ByteString) (part : Bool) : (s.appendMessage v part).inbox = s.inbox := rfl
@[simp] theorem State.appendMessage_rsps (v : ByteString) (part : Bool) : (s.appendMessage v part).rsps = s.rsps := rfl

/-! ### finish -/

@[simp] theorem State.finish_phase (out : ByteString) : (s.finish out).phase = .done := rfl
@[simp] theorem State.finish_ksel (out : ByteString) : (s.finish out).ksel = s.ksel := rfl
@[simp] theorem State.finish_kw (out : ByteString) : (s.finish out).kw = s.kw := rfl
@[simp] theorem State.finish_kwValid (out : ByteString) : (s.finish out).kwValid = s.kwValid := rfl
@[simp] theorem State.finish_macKey (out : ByteString) : (s.finish out).macKey = s.macKey := rfl
@[simp] theorem State.finish_ctrKey (out : ByteString) : (s.finish out).ctrKey = s.ctrKey := rfl
@[simp] theorem State.finish_k1 (out : ByteString) : (s.finish out).k1 = s.k1 := rfl
@[simp] theorem State.finish_k2 (out : ByteString) : (s.finish out).k2 = s.k2 := rfl
@[simp] theorem State.finish_d (out : ByteString) : (s.finish out).d = 0 := rfl
@[simp] theorem State.finish_cmacX (out : ByteString) : (s.finish out).cmacX = 0 := rfl
@[simp] theorem State.finish_adOpen (out : ByteString) : (s.finish out).adOpen = s.adOpen := rfl
@[simp] theorem State.finish_msgClosed (out : ByteString) : (s.finish out).msgClosed = false := rfl
@[simp] theorem State.finish_ibuf (out : ByteString) : (s.finish out).ibuf = [] := rfl
@[simp] theorem State.finish_obuf (out : ByteString) : (s.finish out).obuf = out := rfl
@[simp] theorem State.finish_err (out : ByteString) : (s.finish out).err = s.err := rfl
@[simp] theorem State.finish_inbox (out : ByteString) : (s.finish out).inbox = s.inbox := rfl
@[simp] theorem State.finish_rsps (out : ByteString) : (s.finish out).rsps = s.rsps := rfl

/-! ### emit -/

@[simp] theorem State.emit_phase (rc : RespCode) (rdata : Block) : (s.emit rc rdata).phase = s.phase := rfl
@[simp] theorem State.emit_ksel (rc : RespCode) (rdata : Block) : (s.emit rc rdata).ksel = s.ksel := rfl
@[simp] theorem State.emit_kw (rc : RespCode) (rdata : Block) : (s.emit rc rdata).kw = s.kw := rfl
@[simp] theorem State.emit_kwValid (rc : RespCode) (rdata : Block) : (s.emit rc rdata).kwValid = s.kwValid := rfl
@[simp] theorem State.emit_macKey (rc : RespCode) (rdata : Block) : (s.emit rc rdata).macKey = s.macKey := rfl
@[simp] theorem State.emit_ctrKey (rc : RespCode) (rdata : Block) : (s.emit rc rdata).ctrKey = s.ctrKey := rfl
@[simp] theorem State.emit_k1 (rc : RespCode) (rdata : Block) : (s.emit rc rdata).k1 = s.k1 := rfl
@[simp] theorem State.emit_k2 (rc : RespCode) (rdata : Block) : (s.emit rc rdata).k2 = s.k2 := rfl
@[simp] theorem State.emit_d (rc : RespCode) (rdata : Block) : (s.emit rc rdata).d = s.d := rfl
@[simp] theorem State.emit_cmacX (rc : RespCode) (rdata : Block) : (s.emit rc rdata).cmacX = s.cmacX := rfl
@[simp] theorem State.emit_adOpen (rc : RespCode) (rdata : Block) : (s.emit rc rdata).adOpen = s.adOpen := rfl
@[simp] theorem State.emit_msgClosed (rc : RespCode) (rdata : Block) : (s.emit rc rdata).msgClosed = s.msgClosed := rfl
@[simp] theorem State.emit_ibuf (rc : RespCode) (rdata : Block) : (s.emit rc rdata).ibuf = s.ibuf := rfl
@[simp] theorem State.emit_obuf (rc : RespCode) (rdata : Block) : (s.emit rc rdata).obuf = s.obuf := rfl
@[simp] theorem State.emit_err (rc : RespCode) (rdata : Block) : (s.emit rc rdata).err = s.err := rfl
@[simp] theorem State.emit_inbox (rc : RespCode) (rdata : Block) : (s.emit rc rdata).inbox = s.inbox := rfl
@[simp] theorem State.emit_rsps (rc : RespCode) (rdata : Block) : (s.emit rc rdata).rsps = s.rsps ++ [⟨rc, rdata⟩] := rfl

/-! ### withInbox -/

@[simp] theorem State.withInbox_phase (events : List HostEvent) : (s.withInbox events).phase = s.phase := rfl
@[simp] theorem State.withInbox_ksel (events : List HostEvent) : (s.withInbox events).ksel = s.ksel := rfl
@[simp] theorem State.withInbox_kw (events : List HostEvent) : (s.withInbox events).kw = s.kw := rfl
@[simp] theorem State.withInbox_kwValid (events : List HostEvent) : (s.withInbox events).kwValid = s.kwValid := rfl
@[simp] theorem State.withInbox_macKey (events : List HostEvent) : (s.withInbox events).macKey = s.macKey := rfl
@[simp] theorem State.withInbox_ctrKey (events : List HostEvent) : (s.withInbox events).ctrKey = s.ctrKey := rfl
@[simp] theorem State.withInbox_k1 (events : List HostEvent) : (s.withInbox events).k1 = s.k1 := rfl
@[simp] theorem State.withInbox_k2 (events : List HostEvent) : (s.withInbox events).k2 = s.k2 := rfl
@[simp] theorem State.withInbox_d (events : List HostEvent) : (s.withInbox events).d = s.d := rfl
@[simp] theorem State.withInbox_cmacX (events : List HostEvent) : (s.withInbox events).cmacX = s.cmacX := rfl
@[simp] theorem State.withInbox_adOpen (events : List HostEvent) : (s.withInbox events).adOpen = s.adOpen := rfl
@[simp] theorem State.withInbox_msgClosed (events : List HostEvent) : (s.withInbox events).msgClosed = s.msgClosed := rfl
@[simp] theorem State.withInbox_ibuf (events : List HostEvent) : (s.withInbox events).ibuf = s.ibuf := rfl
@[simp] theorem State.withInbox_obuf (events : List HostEvent) : (s.withInbox events).obuf = s.obuf := rfl
@[simp] theorem State.withInbox_err (events : List HostEvent) : (s.withInbox events).err = s.err := rfl
@[simp] theorem State.withInbox_inbox (events : List HostEvent) : (s.withInbox events).inbox = events := rfl
@[simp] theorem State.withInbox_rsps (events : List HostEvent) : (s.withInbox events).rsps = s.rsps := rfl

/-! ### reset -/

@[simp] theorem State.reset_phase : State.reset.phase = .unkeyed := rfl
@[simp] theorem State.reset_ksel : State.reset.ksel = .none := rfl
@[simp] theorem State.reset_kw : State.reset.kw = #v[0, 0, 0, 0] := rfl
@[simp] theorem State.reset_kwValid : State.reset.kwValid = 0 := rfl
@[simp] theorem State.reset_macKey : State.reset.macKey = 0 := rfl
@[simp] theorem State.reset_ctrKey : State.reset.ctrKey = 0 := rfl
@[simp] theorem State.reset_k1 : State.reset.k1 = 0 := rfl
@[simp] theorem State.reset_k2 : State.reset.k2 = 0 := rfl
@[simp] theorem State.reset_d : State.reset.d = 0 := rfl
@[simp] theorem State.reset_cmacX : State.reset.cmacX = 0 := rfl
@[simp] theorem State.reset_adOpen : State.reset.adOpen = false := rfl
@[simp] theorem State.reset_msgClosed : State.reset.msgClosed = false := rfl
@[simp] theorem State.reset_ibuf : State.reset.ibuf = [] := rfl
@[simp] theorem State.reset_obuf : State.reset.obuf = [] := rfl
@[simp] theorem State.reset_err : State.reset.err = .ok := rfl
@[simp] theorem State.reset_inbox : State.reset.inbox = [] := rfl
@[simp] theorem State.reset_rsps : State.reset.rsps = [] := rfl

/-! ### The lengths -/

@[simp] theorem State.ilen_eq : s.ilen = s.ibuf.length := rfl

@[simp] theorem State.olen_eq : s.olen = s.obuf.length := rfl

end Sys2Proof.Machine
end

