-- ==== Sys2Proof/Laws/Ops.lean ====
section
/-! SUPPORT. One lemma per shared operation: everything it can answer. Provers cite these and leave the operations
folded. -/

namespace Sys2Proof.Machine

/-! ## Ending a command -/

@[simp] theorem respond_eq (rdata : Block) (s : State) : respond rdata s = .next (s.emit .ok rdata) := rfl

@[simp] theorem fail_eq (code : RespCode) (s : State) : fail code s = .next ((s.abort code).emit code 0) := rfl

@[simp] theorem resetEvent_eq (s : State) : resetEvent s = .next s.dropInstance := rfl

theorem requirePhase_legal {legal : List Phase} {s : State} {body : Result} (h : s.phase ∈ legal) :
    requirePhase legal s body = body := if_pos h

theorem requirePhase_illegal {legal : List Phase} {s : State} {body : Result} (h : s.phase ∉ legal) :
    requirePhase legal s body = fail .proto s := if_neg h

@[simp] theorem requirePhase_all (s : State) (body : Result) :
    requirePhase [.unkeyed, .ready, .collect, .done] s body = body := by
  apply requirePhase_legal
  cases s.phase <;> simp

/-- The phase check passes the body through or fails with E_PROTO. -/
theorem requirePhase_cases (legal : List Phase) (s : State) (body : Result) :
    (s.phase ∈ legal ∧ requirePhase legal s body = body) ∨
      (s.phase ∉ legal ∧ requirePhase legal s body = fail .proto s) := by
  by_cases h : s.phase ∈ legal
  · exact .inl ⟨h, requirePhase_legal h⟩
  · exact .inr ⟨h, requirePhase_illegal h⟩

@[simp] theorem raiseIf_true (code : RespCode) (s : State) (body : Result) :
    raiseIf true code s body = fail code s := rfl

@[simp] theorem raiseIf_false (code : RespCode) (s : State) (body : Result) : raiseIf false code s body = body := rfl

/-- A check passes the body through or fails with its code. -/
theorem raiseIf_cases (bad : Bool) (code : RespCode) (s : State) (body : Result) :
    (bad = false ∧ raiseIf bad code s body = body) ∨ (bad = true ∧ raiseIf bad code s body = fail code s) := by
  cases bad
  · exact .inl ⟨rfl, rfl⟩
  · exact .inr ⟨rfl, rfl⟩

/-- What a command can answer: an OK response in a state `good` of its own, or a failure with its abort. -/
def AnswersOkOrFails (s : State) (r : Result) (good : State → Block → Prop) : Prop :=
  (∃ u rdata, r = .next (u.emit .ok rdata) ∧ good u rdata) ∨ ∃ code, code ≠ .ok ∧ r = fail code s

theorem requirePhase_answers {legal : List Phase} {s : State} {body : Result} {good : State → Block → Prop}
    (h : s.phase ∈ legal → AnswersOkOrFails s body good) : AnswersOkOrFails s (requirePhase legal s body) good := by
  rcases requirePhase_cases legal s body with ⟨hp, e⟩ | ⟨-, e⟩ <;> rw [e]
  · exact h hp
  · exact .inr ⟨.proto, by decide, rfl⟩

theorem raiseIf_answers {bad : Bool} {code : RespCode} {s : State} {body : Result} {good : State → Block → Prop}
    (hc : code ≠ .ok) (h : bad = false → AnswersOkOrFails s body good) :
    AnswersOkOrFails s (raiseIf bad code s body) good := by
  rcases raiseIf_cases bad code s body with ⟨hb, e⟩ | ⟨-, e⟩ <;> rw [e]
  · exact h hb
  · exact .inr ⟨code, hc, rfl⟩

theorem respond_answers {s u : State} {rdata : Block} {good : State → Block → Prop} (h : good u rdata) :
    AnswersOkOrFails s (respond rdata u) good := .inl ⟨u, rdata, rfl, h⟩

/-! ## The buffers -/

@[simp] theorem memWrite_append (buf v : ByteString) : memWrite buf buf.length v = buf ++ v := by
  simp [memWrite]

theorem memByte_append_left (buf v : ByteString) (addr : Nat) (h : addr < buf.length) :
    memByte (buf ++ v) addr = memByte buf addr := by
  simp [memByte, List.getElem?_append_left h]

theorem memByte_append_right (buf v : ByteString) (j : Nat) : memByte (buf ++ v) (buf.length + j) = v[j]? := by
  rw [memByte, List.getElem?_append_right (by omega), Nat.add_sub_cancel_left]

theorem memByte_beyond (buf : ByteString) (addr : Nat) (h : buf.length ≤ addr) : memByte buf addr = none := by
  simp [memByte, h]

/-- The cells of a buffer, addresses strictly rising. -/
theorem memCells_rising (buf : ByteString) : (memCells buf).Pairwise fun a b => a.1 < b.1 := by
  have h : ∀ n, ((buf.zipIdx n).map fun p => (p.2, p.1)).Pairwise fun a b => a.1 < b.1 := by
    induction buf with
    | nil => simp
    | cons x buf ih =>
      intro n
      simp only [List.zipIdx_cons, List.map_cons, List.pairwise_cons]
      refine ⟨?_, ih (n + 1)⟩
      intro c hc
      obtain ⟨p, hp, rfl⟩ := List.mem_map.1 hc
      have := List.le_snd_of_mem_zipIdx hp
      show n < p.2
      omega
  exact h 0

/-- The cells say what `memByte` reads. -/
theorem mem_memCells (buf : ByteString) (addr : Nat) (b : Byte) :
    (addr, b) ∈ memCells buf ↔ memByte buf addr = some b := by
  simp only [memCells, memByte, List.mem_map, Prod.mk.injEq, Prod.exists]
  constructor
  · rintro ⟨x, n, hm, rfl, rfl⟩
    exact List.mem_zipIdx_iff_getElem?.1 hm
  · intro h
    exact ⟨b, addr, List.mem_zipIdx_iff_getElem?.2 h, rfl, rfl⟩

/-! ## Memory form: every operation keeps it -/

@[simp] theorem reset_memory_wf (cfg : Config) : Memory.wf cfg State.reset = true := by simp [Memory.wf]

theorem dropInstance_memory_wf (cfg : Config) (s : State) : Memory.wf cfg s.dropInstance = true := by simp [Memory.wf]

theorem abort_memory_wf (cfg : Config) (s : State) (code : RespCode) : Memory.wf cfg (s.abort code) = true := by
  simp [Memory.wf]

theorem openTransaction_memory_wf (cfg : Config) (s : State) (d0 : Block) :
    Memory.wf cfg (s.openTransaction d0) = true := by simp [Memory.wf]

theorem appendMessage_memory_wf (cfg : Config) (s : State) (v : ByteString) (part : Bool)
    (h : Memory.wf cfg s = true) (room : s.ilen + v.length ≤ cfg.bufCap) :
    Memory.wf cfg (s.appendMessage v part) = true := by
  simp only [Memory.wf, Bool.and_eq_true, decide_eq_true_eq] at h ⊢
  refine ⟨?_, by simpa using h.2⟩
  simpa using room

theorem finish_memory_wf (cfg : Config) (s : State) (out : ByteString) (room : out.length ≤ cfg.bufCap) :
    Memory.wf cfg (s.finish out) = true := by simp [Memory.wf, room]

/-! ## Steps -/

theorem takeEvent_nil {s : State} (h : s.inbox = []) : takeEvent s = none := by simp [takeEvent, h]

theorem takeEvent_cons {s : State} {e : HostEvent} {rest : List HostEvent} (h : s.inbox = e :: rest) :
    takeEvent s = some (e, s.withInbox rest) := by simp [takeEvent, h]

/-- A step on a command record: the decoded command runs, or E_ILLEGAL. -/
theorem step_command {s : State} {c : CommandRecord} {rest : List HostEvent} (h : s.inbox = .command c :: rest) :
    step s = match decodeRecord c with
      | .ok i => exec i (s.withInbox rest)
      | .error _ => fail .illegal (s.withInbox rest) := by
  cases hd : decodeRecord c <;> simp only [step, takeEvent_cons h, hd]

/-- A step on the reset event. -/
theorem step_reset {s : State} {rest : List HostEvent} (h : s.inbox = .reset :: rest) :
    step s = .next (s.withInbox rest).dropInstance := by
  simp only [step, takeEvent_cons h, resetEvent_eq]

end Sys2Proof.Machine
end

