-- ==== Sys2Proof/Laws/Exec.lean ====
section
/-! SUPPORT. Everything a command can do, said once: it responds OK in the one case its rule gives, with the one update
its rule gives, or it fails with the abort. -/

namespace Sys2Proof.Machine

/-- The case in which command `i` responds OK in state `s`: the conditions its rule asks for, the state `u` it leaves
before the response is appended, and the read data. -/
def OkCase : Instr → State → State → Block → Prop
  | .nop, s, u, w => u = s ∧ w = 0
  | .zeroize, s, u, w => u = s.dropInstance ∧ w = 0
  | .statrd, s, u, w => u = s ∧ w = statusWord s
  | .keywr idx data, s, u, w => s.phase = .unkeyed ∧ u = s.writeKeyWord idx data ∧ w = 0
  | .keyinit klen, s, u, w => s.phase = .unkeyed ∧ supportedKlen klen.val = true ∧ keyAbsent s klen.val = false ∧
      u = s.installKey (KSel.ofHalf (klen.val / 2)) (macHalf s klen.val) (ctrHalf s klen.val)
        (subkeys (Config.chip.E (macHalf s klen.val))) ∧ w = 0
  | .begin, s, u, w => (s.phase = .ready ∨ s.phase = .done) ∧
      u = s.openTransaction (s2vInitWith (macE Config.chip s) s.k1 s.k2) ∧ w = 0
  | .adpush nbytes last data, s, u, w => s.phase = .collect ∧ (last && nbytes == 0 && s.adOpen) = false ∧
      u = (if last then
        s.closeComponent (s2vStep s.d (cmacFinish (macE Config.chip s) s.k1 s.k2 s.cmacX data nbytes))
        else s.absorbBeat (cmacAbsorb (macE Config.chip s) s.cmacX data)) ∧ w = 0
  | .msgpush nbytes data, s, u, w => s.phase = .collect ∧ s.msgClosed = false ∧
      s.ilen + nbytes.val ≤ Config.chip.bufCap ∧
      u = s.appendMessage (beatBytes nbytes data) (decide (nbytes.val < 16)) ∧ w = 0
  | .encrypt, s, u, w => s.phase = .collect ∧ s.adOpen = false ∧ s.ilen + 16 ≤ Config.chip.bufCap ∧
      u = s.finish (encryptOutput Config.chip s) ∧ w = 0
  | .decrypt, s, u, w => s.phase = .collect ∧ s.adOpen = false ∧ 16 ≤ s.ilen ∧
      ctEq (sivOf Config.chip s (candidate Config.chip s)) (envelopeSiv s.ibuf) = true ∧
      u = s.finish (candidate Config.chip s) ∧ w = 0
  | .outrd blk, s, u, w => s.phase = .done ∧ 16 * blk.val < s.olen ∧ u = s ∧ w = resultBlock s.obuf blk.val

/-- A command answers OK in its OK case, or fails. -/
theorem exec_answers (i : Instr) (s : State) : AnswersOkOrFails s (exec i s) (OkCase i s) := by
  cases i with
  | nop => exact requirePhase_answers fun _ => respond_answers ⟨rfl, rfl⟩
  | zeroize => exact requirePhase_answers fun _ => respond_answers ⟨rfl, rfl⟩
  | statrd => exact requirePhase_answers fun _ => respond_answers ⟨rfl, rfl⟩
  | keywr idx data => exact requirePhase_answers fun hp => respond_answers ⟨by simpa using hp, rfl, rfl⟩
  | keyinit klen =>
    exact requirePhase_answers fun hp => raiseIf_answers (by decide) fun h1 => raiseIf_answers (by decide) fun h2 =>
      respond_answers ⟨by simpa using hp, by simpa using h1, h2, rfl, rfl⟩
  | begin => exact requirePhase_answers fun hp => respond_answers ⟨by simpa using hp, rfl, rfl⟩
  | adpush nbytes last data =>
    refine requirePhase_answers fun hp => raiseIf_answers (by decide) fun h => ?_
    cases last
    · exact respond_answers ⟨by simpa using hp, h, rfl, rfl⟩
    · exact respond_answers ⟨by simpa using hp, h, rfl, rfl⟩
  | msgpush nbytes data =>
    exact requirePhase_answers fun hp => raiseIf_answers (by decide) fun h1 => raiseIf_answers (by decide) fun h2 =>
      respond_answers ⟨by simpa using hp, h1, by simpa using h2, rfl, rfl⟩
  | encrypt =>
    exact requirePhase_answers fun hp => raiseIf_answers (by decide) fun h1 => raiseIf_answers (by decide) fun h2 =>
      respond_answers ⟨by simpa using hp, h1, by simpa using h2, rfl, rfl⟩
  | decrypt =>
    exact requirePhase_answers fun hp => raiseIf_answers (by decide) fun h1 => raiseIf_answers (by decide) fun h2 =>
      raiseIf_answers (by decide) fun h3 =>
        respond_answers ⟨by simpa using hp, h1, by simpa using h2, by simpa using h3, rfl, rfl⟩
  | outrd blk =>
    exact requirePhase_answers fun hp => raiseIf_answers (by decide) fun h =>
      respond_answers ⟨by simpa using hp, by simpa using h, rfl, rfl⟩

/-- In its OK case a command answers OK. -/
theorem exec_ok {i : Instr} {s u : State} {w : Block} (h : OkCase i s u w) : exec i s = .next (u.emit .ok w) := by
  cases i with
  | nop => obtain ⟨rfl, rfl⟩ := h; simp [exec, execNop]
  | zeroize => obtain ⟨rfl, rfl⟩ := h; simp [exec, execZeroize]
  | statrd => obtain ⟨rfl, rfl⟩ := h; simp [exec, execStatrd]
  | keywr idx data =>
    obtain ⟨hp, rfl, rfl⟩ := h
    simp [exec, execKeywr, requirePhase, hp]
  | keyinit klen =>
    obtain ⟨hp, h1, h2, rfl, rfl⟩ := h
    simp [exec, execKeyinit, execKeyinitAt, requirePhase, hp, h1, h2]
  | begin =>
    obtain ⟨hp, rfl, rfl⟩ := h
    simp [exec, execBegin, execBeginAt, requirePhase, hp]
  | adpush nbytes last data =>
    obtain ⟨hp, h1, rfl, rfl⟩ := h
    simp only [exec, execAdpush, execAdpushAt, requirePhase, hp, h1, raiseIf_false, List.mem_singleton, if_true,
      respond_eq]
    cases last <;> rfl
  | msgpush nbytes data =>
    obtain ⟨hp, h1, h2, rfl, rfl⟩ := h
    simp [exec, execMsgpush, execMsgpushAt, requirePhase, hp, h1, Nat.not_lt.2 h2]
  | encrypt =>
    obtain ⟨hp, h1, h2, rfl, rfl⟩ := h
    simp [exec, execEncrypt, execEncryptAt, requirePhase, hp, h1, Nat.not_lt.2 h2]
  | decrypt =>
    obtain ⟨hp, h1, h2, h3, rfl, rfl⟩ := h
    simp [exec, execDecrypt, execDecryptAt, requirePhase, hp, h1, Nat.not_lt.2 h2, h3]
  | outrd blk =>
    obtain ⟨hp, h1, rfl, rfl⟩ := h
    simp [exec, execOutrd, requirePhase, hp, Nat.not_le.2 h1]

/-- What `exec` can answer: OK in the command's OK case, or a failure. -/
theorem exec_cases (i : Instr) (s : State) :
    (∃ u w, exec i s = .next (u.emit .ok w) ∧ OkCase i s u w) ∨
      ∃ code, code ≠ .ok ∧ exec i s = .next ((s.abort code).emit code 0) := exec_answers i s

/-- The two cases of `exec` do not overlap: the response tells which one it was. -/
theorem exec_next_cases {i : Instr} {s t : State} (h : exec i s = .next t) :
    (∃ u w, t = u.emit .ok w ∧ OkCase i s u w) ∨ ∃ code, code ≠ .ok ∧ t = (s.abort code).emit code 0 := by
  rcases exec_cases i s with ⟨u, w, e, hc⟩ | ⟨code, hc, e⟩ <;> rw [e] at h <;> cases h
  · exact .inl ⟨u, w, rfl, hc⟩
  · exact .inr ⟨code, hc, rfl⟩

/-- No command touches the responses already given or the host's events. -/
theorem OkCase.frame {i : Instr} {s u : State} {w : Block} (h : OkCase i s u w) :
    u.rsps = s.rsps ∧ u.inbox = s.inbox := by
  cases i with
  | nop => obtain ⟨rfl, -⟩ := h; exact ⟨rfl, rfl⟩
  | zeroize => obtain ⟨rfl, -⟩ := h; exact ⟨rfl, rfl⟩
  | statrd => obtain ⟨rfl, -⟩ := h; exact ⟨rfl, rfl⟩
  | keywr idx data => obtain ⟨-, rfl, -⟩ := h; exact ⟨rfl, rfl⟩
  | keyinit klen => obtain ⟨-, -, -, rfl, -⟩ := h; exact ⟨rfl, rfl⟩
  | begin => obtain ⟨-, rfl, -⟩ := h; exact ⟨rfl, rfl⟩
  | adpush nbytes last data => obtain ⟨-, -, rfl, -⟩ := h; cases last <;> exact ⟨rfl, rfl⟩
  | msgpush nbytes data => obtain ⟨-, -, -, rfl, -⟩ := h; exact ⟨rfl, rfl⟩
  | encrypt => obtain ⟨-, -, -, rfl, -⟩ := h; exact ⟨rfl, rfl⟩
  | decrypt => obtain ⟨-, -, -, -, rfl, -⟩ := h; exact ⟨rfl, rfl⟩
  | outrd blk => obtain ⟨-, -, rfl, -⟩ := h; exact ⟨rfl, rfl⟩

end Sys2Proof.Machine
end

