-- ==== Sys2Proof/Laws/Invariant.lean ====
section
/-! SUPPORT. The invariant of 10_state R36 under the updates that every command shares: the abort, the response, the
taken event, and the dropped instance. -/

namespace Sys2Proof.Safety

open Sys2Proof.Machine

variable {cfg : Config} {s : State}

theorem Inv.abort (h : Inv cfg s) (code : RespCode) : Inv cfg (s.abort code) where
  unkeyed_iff := by simp
  no_key := h.no_key
  staging_clear _ := ⟨rfl, rfl⟩
  chain_clear _ := ⟨rfl, rfl, rfl, rfl, rfl⟩
  output_clear _ := rfl
  cmac_clear _ := rfl
  append_aligned _ := rfl
  capacity := by simp
  subkeys_cached := h.subkeys_cached
  keys_left_aligned := h.keys_left_aligned

theorem Inv.emit (h : Inv cfg s) (rc : RespCode) (rdata : Block) : Inv cfg (s.emit rc rdata) :=
  ⟨h.1, h.2, h.3, h.4, h.5, h.6, h.7, h.8, h.9, h.10⟩

theorem Inv.withInbox (h : Inv cfg s) (events : List HostEvent) : Inv cfg (s.withInbox events) :=
  ⟨h.1, h.2, h.3, h.4, h.5, h.6, h.7, h.8, h.9, h.10⟩

/-- A keyed state that meets the invariant holds the subkeys of its key (10_state R36 (h)). -/
theorem Inv.subkeys (h : Inv cfg s) (hp : s.phase ≠ .unkeyed) : (s.k1, s.k2) = Machine.subkeys (macE cfg s) := by
  have hk := h.subkeys_cached fun e => hp (h.unkeyed_iff.2 e)
  rw [hk.2, hk.1]
  rfl

end Sys2Proof.Safety
end

