-- ==== Sys2Proof/Laws/PerInstr.lean ====
section
/-! SUPPORT. Per command: the control word the encoder writes is selected by the command's row of the opcode map, its
`match` and `mask` written out from 30_encoding R76. -/

namespace Sys2Proof.Laws.EncodesInRow

open Sys2Proof

/-- `mask` of the command's row (30_encoding R76). -/
def rowMask : Instr → BitVec 32
  | .nop => 0xFFFFFFFF#32
  | .zeroize => 0xFFFFFFFF#32
  | .statrd => 0xFFFFFFFF#32
  | .keywr _ _ => 0xFFFFFFFC#32
  | .keyinit _ => 0xFFFFFF00#32
  | .begin => 0xFFFFFFFF#32
  | .adpush _ _ _ => 0xFFFFFEE0#32
  | .msgpush _ _ => 0xFFFFFFE0#32
  | .encrypt => 0xFFFFFFFF#32
  | .decrypt => 0xFFFFFFFF#32
  | .outrd _ => 0xFF000000#32

/-- `match` of the command's row (30_encoding R76). -/
def rowMatch : Instr → BitVec 32
  | .nop => 0x00000000#32
  | .zeroize => 0x01000000#32
  | .statrd => 0x02000000#32
  | .keywr _ _ => 0x10000000#32
  | .keyinit _ => 0x11000000#32
  | .begin => 0x20000000#32
  | .adpush _ _ _ => 0x21000000#32
  | .msgpush _ _ => 0x22000000#32
  | .encrypt => 0x30000000#32
  | .decrypt => 0x31000000#32
  | .outrd _ => 0x40000000#32

/-- The row of the command selects its control word, for every operand the type admits. -/
def Statement (i : Instr) : Prop := encodeCtrl i &&& rowMask i = rowMatch i

theorem nop : Statement .nop := by unfold Statement; decide

theorem zeroize : Statement .zeroize := by unfold Statement; decide

theorem statrd : Statement .statrd := by unfold Statement; decide

theorem keywr (idx : Fin 4) (data : Block) : Statement (.keywr idx data) := by
  show (0x10#8 ++ BitVec.ofNat 24 idx.val) &&& 0xFFFFFFFC#32 = 0x10000000#32
  revert idx
  decide

theorem keyinit (klen : Fin 256) : Statement (.keyinit klen) := by
  have h : BitVec.ofNat 24 klen.val &&& 0xFFFF00#24 = 0#24 := by
    apply BitVec.eq_of_getLsbD_eq
    intro n hn
    have hm : ∀ n, n < 24 → (0xFFFF00#24).getLsbD n = decide (8 ≤ n) := by decide
    rw [BitVec.getLsbD_and, hm n hn, BitVec.getLsbD_ofNat]
    by_cases h8 : 8 ≤ n
    · have hk : klen.val < 2 ^ n := Nat.lt_of_lt_of_le klen.isLt (Nat.pow_le_pow_right (n := 2) (by decide) h8)
      simp [Nat.testBit_lt_two_pow hk]
    · simp [h8]
  show (0x11#8 ++ BitVec.ofNat 24 klen.val) &&& (0xFF#8 ++ 0xFFFF00#24) = 0x11#8 ++ 0#24
  rw [BitVec.and_append, h]
  rfl

theorem begin : Statement .begin := by unfold Statement; decide

theorem adpush (nbytes : Fin 17) (last : Bool) (data : Block) : Statement (.adpush nbytes last data) := by
  show (0x21#8 ++ ((if last then 0x100#24 else 0#24) ||| BitVec.ofNat 24 nbytes.val)) &&&
    0xFFFFFEE0#32 = 0x21000000#32
  revert nbytes last
  decide

theorem msgpush (nbytes : Fin 17) (data : Block) : Statement (.msgpush nbytes data) := by
  show (0x22#8 ++ BitVec.ofNat 24 nbytes.val) &&& 0xFFFFFFE0#32 = 0x22000000#32
  revert nbytes
  decide

theorem encrypt : Statement .encrypt := by unfold Statement; decide

theorem decrypt : Statement .decrypt := by unfold Statement; decide

theorem outrd (blk : Fin 16777216) : Statement (.outrd blk) := by
  show (0x40#8 ++ BitVec.ofNat 24 blk.val) &&& (0xFF#8 ++ 0#24) = 0x40#8 ++ 0#24
  rw [BitVec.and_append, BitVec.and_zero]
  rfl

end Sys2Proof.Laws.EncodesInRow
end

