-- ==== Sys2Proof/Laws/Runs.lean ====
section
/-! SUPPORT. Laws of command sequences: how a run splits, and what one command of a sequence does to it. -/

namespace Sys2Proof.Machine

open Sys2Proof.Safety

@[simp] theorem run_zero (s : State) : run 0 s = .next s := rfl

/-- One step, then the rest, in every outcome. -/
theorem run_step (n : Nat) (s : State) : run (n + 1) s =
    match step s with
    | .next u => run n u
    | .fault r => .fault r
    | .refused r => .refused r := by
  have e : Sys2Proof.core.step s = step s := rfl
  cases hs : step s <;> simp only [run, Host.Core.run, e, hs] <;> rfl

/-- One step, then the rest. -/
theorem run_succ {s u : State} (h : step s = .next u) (n : Nat) : run (n + 1) s = run n u := by rw [run_step, h]

/-- A run splits where the first part arrives. -/
theorem run_add {s u : State} (n m : Nat) (h : run n s = .next u) : run (n + m) s = run m u := by
  induction n generalizing s with
  | zero => cases h; rw [Nat.zero_add]
  | succ n ih =>
    cases hs : step s with
    | next v =>
      rw [run_succ hs] at h
      rw [Nat.succ_add, run_succ hs, ih h]
    | fault r => cases r
    | refused r =>
      rw [run_step, hs] at h
      cases h

/-- The OK case of a command does not look at the host's events. -/
theorem OkCase.withInbox {i : Instr} {s u : State} {w : Block} (h : OkCase i s u w) (rest : List HostEvent) :
    OkCase i (s.withInbox rest) (u.withInbox rest) w := by
  cases i with
  | nop => obtain ⟨rfl, e⟩ := h; exact ⟨rfl, e⟩
  | zeroize => obtain ⟨rfl, e⟩ := h; exact ⟨rfl, e⟩
  | statrd => obtain ⟨rfl, e⟩ := h; exact ⟨rfl, e⟩
  | keywr idx data => obtain ⟨hp, rfl, e⟩ := h; exact ⟨hp, rfl, e⟩
  | keyinit klen => obtain ⟨hp, h1, h2, rfl, e⟩ := h; exact ⟨hp, h1, h2, rfl, e⟩
  | begin => obtain ⟨hp, rfl, e⟩ := h; exact ⟨hp, rfl, e⟩
  | adpush nbytes last data => obtain ⟨hp, h1, rfl, e⟩ := h; cases last <;> exact ⟨hp, h1, rfl, e⟩
  | msgpush nbytes data => obtain ⟨hp, h1, h2, rfl, e⟩ := h; exact ⟨hp, h1, h2, rfl, e⟩
  | encrypt => obtain ⟨hp, h1, h2, rfl, e⟩ := h; exact ⟨hp, h1, h2, rfl, e⟩
  | decrypt => obtain ⟨hp, h1, h2, h3, rfl, e⟩ := h; exact ⟨hp, h1, h2, h3, rfl, e⟩
  | outrd blk => obtain ⟨hp, h1, rfl, e⟩ := h; exact ⟨hp, h1, rfl, e⟩

/-- A step on a record that decodes to a command in its OK case. -/
theorem step_ok {s u : State} {c : CommandRecord} {rest : List HostEvent} {i : Instr} {w : Block}
    (hi : s.inbox = .command c :: rest) (hd : decodeRecord c = .ok i) (h : OkCase i s u w) :
    step s = .next ((u.withInbox rest).emit .ok w) := by
  rw [step_command hi, hd]
  exact exec_ok (h.withInbox rest)

/-- The first command of a sequence, in its OK case: the rest runs in the state it leaves. -/
theorem run_issue_ok {i : Instr} {is : List Instr} {s u : State} {w : Block} (hd : decodeRecord (encode i) = .ok i)
    (h : OkCase i s u w) :
    run (is.length + 1) (s.withInbox (issue (i :: is))) = run is.length ((u.emit .ok w).withInbox (issue is)) :=
  run_succ (step_ok (s := s.withInbox (issue (i :: is))) (u := u.withInbox (issue (i :: is))) (c := encode i)
    (rest := issue is) rfl hd (h.withInbox _)) is.length

/-- `OUT n` is one OUTRD for each block of the result. -/
@[simp] theorem outSeq_length (n : Nat) : (outSeq n).length = beatCount n := by simp [outSeq]

/-- An empty result has no block to read. -/
@[simp] theorem outSeq_zero : outSeq 0 = [] := rfl

/-- The blocks of a result in the core are numbered by the 24-bit `blk` without wrapping (log 17). -/
theorem outSeq_index {n j : Nat} (hn : n ≤ Config.chip.bufCap) (hj : 16 * j < n) :
    (Fin.ofNat 16777216 j).val = j := by
  rw [Config.bufCap] at hn
  exact Nat.mod_eq_of_lt (by omega)

/-- A decryption that failed reads nothing. -/
@[simp] theorem decryptOperation_failed (ads : List ByteString) (v : ByteString) :
    decryptOperation ads v false = decryptSeq ads v := by simp [decryptOperation]

/-- The events of a command and of those after it. -/
@[simp] theorem issue_cons (i : Instr) (is : List Instr) : issue (i :: is) = .command (encode i) :: issue is := rfl

@[simp] theorem issue_append (is js : List Instr) : issue (is ++ js) = issue is ++ issue js := by simp [issue]

/-! ## A sequence after a sequence: no command looks at the host's later events -/

theorem requirePhase_withInbox {legal : List Phase} {s t : State} {b b' : Result} {rest : List HostEvent}
    (h : requirePhase legal s b = .next t) (hb : ∀ t, b = .next t → b' = .next (t.withInbox rest)) :
    requirePhase legal (s.withInbox rest) b' = .next (t.withInbox rest) := by
  by_cases hp : s.phase ∈ legal
  · rw [requirePhase_legal hp] at h
    rw [requirePhase_legal (s := s.withInbox rest) hp]
    exact hb t h
  · rw [requirePhase, if_neg hp] at h
    rw [requirePhase, if_neg (show (s.withInbox rest).phase ∉ legal from hp)]
    cases h; rfl

theorem raiseIf_withInbox {bad : Bool} {code : RespCode} {s t : State} {b b' : Result} {rest : List HostEvent}
    (h : raiseIf bad code s b = .next t) (hb : ∀ t, b = .next t → b' = .next (t.withInbox rest)) :
    raiseIf bad code (s.withInbox rest) b' = .next (t.withInbox rest) := by
  cases bad
  · exact hb t h
  · cases h; rfl

theorem respond_withInbox {w : Block} {s : State} {rest : List HostEvent} (t : State) (h : respond w s = .next t) :
    respond w (s.withInbox rest) = .next (t.withInbox rest) := by cases h; rfl

/-- A command does the same whatever the host issues after it. -/
theorem exec_withInbox {i : Instr} {s t : State} (h : exec i s = .next t) (rest : List HostEvent) :
    exec i (s.withInbox rest) = .next (t.withInbox rest) := by
  cases i with
  | nop => exact requirePhase_withInbox h respond_withInbox
  | zeroize => exact requirePhase_withInbox h respond_withInbox
  | statrd => exact requirePhase_withInbox h respond_withInbox
  | keywr idx data => exact requirePhase_withInbox h respond_withInbox
  | keyinit klen =>
    exact requirePhase_withInbox h fun _ h => raiseIf_withInbox h fun _ h => raiseIf_withInbox h respond_withInbox
  | begin => exact requirePhase_withInbox h respond_withInbox
  | adpush nbytes last data =>
    refine requirePhase_withInbox h fun _ h => raiseIf_withInbox h ?_
    cases last <;> exact respond_withInbox
  | msgpush nbytes data =>
    exact requirePhase_withInbox h fun _ h => raiseIf_withInbox h fun _ h => raiseIf_withInbox h respond_withInbox
  | encrypt =>
    exact requirePhase_withInbox h fun _ h => raiseIf_withInbox h fun _ h => raiseIf_withInbox h respond_withInbox
  | decrypt =>
    exact requirePhase_withInbox h fun _ h => raiseIf_withInbox h fun _ h => raiseIf_withInbox h fun _ h =>
      raiseIf_withInbox h respond_withInbox
  | outrd blk => exact requirePhase_withInbox h fun _ h => raiseIf_withInbox h respond_withInbox

/-- A command takes no event of the host beyond its own. -/
theorem exec_inbox {i : Instr} {s t : State} (h : exec i s = .next t) : t.inbox = s.inbox := by
  rcases exec_next_cases h with ⟨u, w, rfl, ho⟩ | ⟨code, -, rfl⟩
  · exact ho.frame.2
  · rfl

/-- A sequence that arrives at `u` does so whatever is issued after it, and then the rest runs from `u`. -/
theorem run_issue_append {s u : State} {is : List Instr} (js : List Instr)
    (h : run is.length (s.withInbox (issue is)) = .next u) :
    run (is ++ js).length (s.withInbox (issue (is ++ js))) = run js.length (u.withInbox (issue js)) := by
  induction is generalizing s with
  | nil => cases h; rfl
  | cons i is ih =>
    have split : ∀ ks, step (s.withInbox (issue (i :: ks))) =
        match decodeRecord (encode i) with
        | .ok i => exec i (s.withInbox (issue ks))
        | .error _ => fail .illegal (s.withInbox (issue ks)) := fun ks => step_command rfl
    rw [List.length_cons, run_step, split] at h
    rw [List.cons_append, List.length_cons, run_step, split]
    cases hd : decodeRecord (encode i) with
    | error e =>
      rw [hd] at h
      exact ih (s := (s.abort .illegal).emit .illegal 0) h
    | ok c =>
      simp only [hd] at h ⊢
      cases hv : exec c (s.withInbox (issue is)) with
      | next v =>
        have keeps : v.withInbox (issue is) = v := by
          show { v with inbox := (s.withInbox (issue is)).inbox } = v
          rw [← exec_inbox hv]
        rw [hv] at h
        rw [show exec c (s.withInbox (issue (is ++ js))) = .next (v.withInbox (issue (is ++ js))) from
          exec_withInbox hv _]
        exact ih (s := v) (by rw [keeps]; exact h)
      | fault r => cases r
      | refused r =>
        rw [hv] at h
        cases h

end Sys2Proof.Machine
end

