-- ==== Sys2Proof/Laws/Units.lean ====
section
/-! SUPPORT. Laws of the five units that the statements about commands lean on: lengths, the block chain, the counter. -/

namespace Sys2Proof.Machine

/-! ## The doubler -/

/-- Bit `n` of the doubled block (40_doubler R100). -/
theorem dbl_getLsbD (b : Block) (n : Nat) (hn : n < 128) :
    (dbl b).getLsbD n = ((decide (1 ≤ n) && b.getLsbD (n - 1)) ^^ (b.msb && (0x87#128).getLsbD n)) := by
  by_cases h : b.msb
  · rw [dbl, if_pos h, BitVec.getLsbD_xor, BitVec.getLsbD_shiftLeft, h]
    cases n <;> simp [hn]
  · rw [dbl, if_neg h, BitVec.getLsbD_shiftLeft]
    cases n <;> simp [hn, h]

/-! ## CMAC -/

/-- The bytes of a padded string (41_cmac R110). -/
theorem topBytes_pad (m : ByteString) (h : m.length ≤ 15) :
    topBytes 16 (pad m h) = m ++ [0x80#8] ++ zeros (15 - m.length) := by
  have hl : (m ++ [0x80#8] ++ zeros (15 - m.length)).length = 16 := by simp; omega
  have := topBytes_packBytes_self 128 (m ++ [0x80#8] ++ zeros (15 - m.length)) (by omega)
  rwa [hl] at this

@[simp] theorem packBytes_zeros (n : Nat) : packBytes 128 (zeros n) = 0 := by
  rw [packBytes, natOfBytes_zeros]; simp

theorem blockAt_full {m : ByteString} {j : Nat} (h : 16 * j + 16 ≤ m.length) :
    topBytes 16 (blockAt m j) = slice m (16 * j) (16 * j + 16) := by
  have hl : (slice m (16 * j) (16 * j + 16)).length = 16 := by simp; omega
  have := topBytes_packBytes_self 128 (slice m (16 * j) (16 * j + 16)) (by omega)
  rwa [hl] at this

/-- The last, possibly partial, block of a string gives its bytes back. -/
theorem blockAt_last {m : ByteString} {j : Nat} (h : m.length ≤ 16 * j + 16) :
    topBytes (m.length - 16 * j) (blockAt m j) = m.drop (16 * j) := by
  have e : slice m (16 * j) (16 * j + 16) = m.drop (16 * j) := by rw [slice, List.take_of_length_le h]
  rw [blockAt, e]
  have hl : (m.drop (16 * j)).length = m.length - 16 * j := by simp
  have := topBytes_packBytes_self 128 (m.drop (16 * j)) (by omega)
  rwa [hl] at this

/-- A string of exactly 16 bytes is one block. -/
theorem blockAt_zero {m : ByteString} (h : m.length ≤ 16) : blockAt m 0 = packBytes 128 m := by
  rw [blockAt, slice, List.take_of_length_le (by omega)]; rfl

/-- The chain from an arbitrary running state (41_cmac R113, step 3). -/
theorem cbcChain_concat (ek : Block → Block) (bs : List Block) (b : Block) :
    cbcChain ek (bs ++ [b]) = ek (bs.foldl (fun x b => ek (x ^^^ b)) 0 ^^^ b) := by
  simp [cbcChain, List.foldl_append]

/-- A nonempty string of whole blocks: the last block carries `K1` (41_cmac R113). -/
theorem cmacWith_full (ek : Block → Block) (k1 k2 : Block) {m : ByteString} (h0 : 0 < m.length)
    (h : m.length % 16 = 0) :
    cmacWith ek k1 k2 m =
      ek (((List.range (m.length / 16 - 1)).map (blockAt m)).foldl (fun x b => ek (x ^^^ b)) 0 ^^^
        (blockAt m (m.length / 16 - 1) ^^^ k1)) := by
  rw [cmacWith, cmacBlocks, if_pos ⟨h0, h⟩, cbcChain_concat]

/-- Any other string: the remainder is padded and carries `K2` (41_cmac R113). -/
theorem cmacWith_partial (ek : Block → Block) (k1 k2 : Block) {m : ByteString}
    (h : ¬(0 < m.length ∧ m.length % 16 = 0)) (fits : (m.drop (16 * (m.length / 16))).length ≤ 15) :
    cmacWith ek k1 k2 m =
      ek (((List.range (m.length / 16)).map (blockAt m)).foldl (fun x b => ek (x ^^^ b)) 0 ^^^
        (pad (m.drop (16 * (m.length / 16))) fits ^^^ k2)) := by
  rw [cmacWith, cmacBlocks, if_neg h, cbcChain_concat]
  simp only [Nat.add_sub_cancel]

/-- One block (41_cmac R113 (b)). -/
theorem cmacWith_block (ek : Block → Block) (k1 k2 w : Block) :
    cmacWith ek k1 k2 (topBytes 16 w) = ek (w ^^^ k1) := by
  rw [cmacWith_full ek k1 k2 (by simp) (by simp)]
  simp [blockAt_zero (m := topBytes 16 w) (by simp)]

/-- At most 15 bytes (41_cmac R113 (a)). -/
theorem cmacWith_short (ek : Block → Block) (k1 k2 : Block) (m : ByteString) (h : m.length ≤ 15) :
    cmacWith ek k1 k2 m = ek (pad m h ^^^ k2) := by
  have h16 : m.length / 16 = 0 := by omega
  rw [cmacWith_partial ek k1 k2 (by omega) (by rw [h16]; simpa using h)]
  simp [h16]

theorem zeros_eq_topBytes : zeros 16 = topBytes 16 (0 : Block) := by
  have h := topBytes_packBytes 128 16 [] (by simp) (by simp)
  simpa [packBytes] using h.symm

/-- `s2v_init() = E(mac_key, k1)` (41_cmac R114, 42_s2v R130). -/
theorem s2vInitWith_eq (ek : Block → Block) (k1 k2 : Block) : s2vInitWith ek k1 k2 = ek k1 := by
  rw [s2vInitWith, zeros_eq_topBytes, cmacWith_block]; simp

/-! ## S2V -/

/-- Bytewise xor of two blocks is their xor (00_scope R15). -/
theorem xorBytes_topBytes (a b : Block) : xorBytes (topBytes 16 a) (topBytes 16 b) = topBytes 16 (a ^^^ b) := by
  apply List.ext_getElem
  · simp
  · intro i h1 h2
    simp only [xorBytes, List.getElem_zipWith, topBytes_getElem]
    apply BitVec.eq_of_getLsbD_eq
    intro j hj
    simp [hj]

@[simp] theorem xorend_length (m : ByteString) (d : Block) (h : 16 ≤ m.length) : (xorend m d h).length = m.length := by
  simp [xorend]; omega

theorem s2vLast_long {m : ByteString} (d : Block) (h : 16 ≤ m.length) : s2vLast d m = xorend m d h := dif_pos h

theorem s2vLast_short {m : ByteString} (d : Block) (h : m.length ≤ 15) :
    s2vLast d m = topBytes 16 (dbl d ^^^ pad m h) := dif_neg (by omega)

/-! ## SIV-CTR -/

@[simp] theorem keystream_length (ek : Block → Block) (c : Block) (q : Nat) : (keystream ek c q).length = 16 * q := by
  induction q generalizing c with
  | zero => rfl
  | succ q ih => simp [keystream, ih]; omega

@[simp] theorem sivCtr_length (ek : Block → Block) (seed : Block) (data : ByteString) :
    (sivCtr ek seed data).length = data.length := by
  simp [sivCtr]; omega

@[simp] theorem sivCtr_nil (ek : Block → Block) (seed : Block) : sivCtr ek seed [] = [] := rfl

theorem counterBlock_succ' (c : Block) (j : Nat) : counterBlock c (j + 1) = counterBlock (inc32 c) j := by
  induction j with
  | zero => rfl
  | succ j ih => rw [counterBlock, ih]; rfl

/-- Block `j` of the keystream is `E(k, C_j)` (43_siv_ctr R142). -/
theorem keystream_block (ek : Block → Block) (c : Block) (q j i : Nat) (hj : j < q) (hi : i < 16) :
    (keystream ek c q)[16 * j + i]? = some ((ek (counterBlock c j)).extractLsb' (120 - 8 * i) 8) := by
  induction q generalizing c j with
  | zero => omega
  | succ q ih =>
    rw [keystream]
    cases j with
    | zero =>
      have hl : 16 * 0 + i < (topBytes 16 (ek c) ++ keystream ek (inc32 c) q).length := by simp; omega
      rw [List.getElem?_eq_getElem hl, List.getElem_append_left (by simp; omega), topBytes_getElem]
      simp [counterBlock]; congr 1; omega
    | succ j =>
      rw [List.getElem?_append_right (by simp; omega), topBytes_length,
        show 16 * (j + 1) + i - 16 = 16 * j + i by omega, ih (inc32 c) j (by omega), ← counterBlock_succ']

/-- The low word of a counter block counts modulo 2^32, the rest stands (43_siv_ctr R141). -/
theorem counterBlock_eq (c : Block) (j : Nat) :
    counterBlock c j = c.extractLsb' 32 96 ++ (c.extractLsb' 0 32 + BitVec.ofNat 32 j) := by
  have hi (a : BitVec 96) (b : BitVec 32) : (a ++ b : Block).extractLsb' 32 96 = a := by
    apply BitVec.eq_of_toNat_eq
    have ha := a.isLt
    have hb := b.isLt
    have e : (a ++ b : Block).toNat = a.toNat * 2 ^ 32 + b.toNat := by
      show (a ++ b : BitVec (96 + 32)).toNat = _
      rw [BitVec.toNat_append, Nat.shiftLeft_eq, Nat.mul_comm, Nat.two_pow_add_eq_or_of_lt hb]
    rw [BitVec.extractLsb'_toNat, e, Nat.shiftRight_eq_div_pow]
    omega
  have lo (a : BitVec 96) (b : BitVec 32) : (a ++ b : Block).extractLsb' 0 32 = b := by
    apply BitVec.eq_of_toNat_eq
    have hb := b.isLt
    have e : (a ++ b : Block).toNat = a.toNat * 2 ^ 32 + b.toNat := by
      show (a ++ b : BitVec (96 + 32)).toNat = _
      rw [BitVec.toNat_append, Nat.shiftLeft_eq, Nat.mul_comm, Nat.two_pow_add_eq_or_of_lt hb]
    rw [BitVec.extractLsb'_toNat, e, Nat.shiftRight_zero]
    omega
  induction j with
  | zero =>
    apply BitVec.eq_of_toNat_eq
    have e : (c.extractLsb' 32 96 ++ (c.extractLsb' 0 32 + BitVec.ofNat 32 0) : Block).toNat =
        (c.extractLsb' 32 96).toNat * 2 ^ 32 + (c.extractLsb' 0 32 + BitVec.ofNat 32 0).toNat := by
      show (c.extractLsb' 32 96 ++ (c.extractLsb' 0 32 + BitVec.ofNat 32 0) : BitVec (96 + 32)).toNat = _
      rw [BitVec.toNat_append, Nat.shiftLeft_eq, Nat.mul_comm, Nat.two_pow_add_eq_or_of_lt (BitVec.isLt _)]
    have hc := c.isLt
    rw [counterBlock, e, BitVec.extractLsb'_toNat, BitVec.toNat_add, BitVec.extractLsb'_toNat,
      Nat.shiftRight_eq_div_pow, Nat.shiftRight_zero]
    simp
    omega
  | succ j ih =>
    rw [counterBlock, ih, inc32, hi, lo, BitVec.add_assoc]
    congr 2
    apply BitVec.eq_of_toNat_eq
    simp [Nat.add_mod]

/-! ## Comparator -/

@[simp] theorem ctAcc_self (a : Block) : ctAcc a a = 0 := by
  have h : ∀ (l : ByteString) (x : Byte), (xorBytes l l).foldl (· ||| ·) x = x := by
    intro l
    induction l with
    | nil => intro x; rfl
    | cons y l ih => intro x; simpa [xorBytes] using ih x
  exact h _ 0

end Sys2Proof.Machine
end

