-- ==== Sys2Proof/Tests/Slice0.lean ====
section
/-! SUPPORT. Tests of the model against the spec's own values: 95_test_vectors (V<n>, P<n>), the worked examples of the
rules, and words written out from 30_encoding. Where a value passes through the block cipher, the test's cipher is the
table of the `E` values that 95_test_vectors V1 prints (source example, siv-rb §8), and 0 elsewhere. After them, for
each obligation with hypotheses, a state and operands that meet all of them (`witness_<...>`). -/

namespace Sys2Proof.Tests

open Sys2Proof.Machine

/-! ## WellFormed: an ill-formed term for each check (30_encoding R77) -/

/-- R77 case 4: a non-final beat must be full. -/
theorem test_wf_adpush_partial_not_last : (Instr.adpush 5 false 0).wellFormed = false := by decide
/-- R77 case 5: MSGPUSH of 0 bytes. -/
theorem test_wf_msgpush_empty : (Instr.msgpush 0 0).wellFormed = false := by decide
/-- R76: the empty component and a full non-final beat are legal. -/
theorem test_wf_adpush_legal :
    (Instr.adpush 0 true 0).wellFormed = true ∧ (Instr.adpush 16 false 0).wellFormed = true := by decide

/-! ## Decoding: words written out bit by bit from 30_encoding R73, R76 (V14) -/

/-- The instruction a control word decodes to, `none` if it is illegal. -/
def dec (ctrl : BitVec 32) : Option Instr := decodeTableWord 32 ctrl.toNat

theorem test_decode_nop : dec 0b00000000_000000000000000000000000#32 = some .nop := by decide
theorem test_decode_zeroize : dec 0b00000001_000000000000000000000000#32 = some .zeroize := by decide
theorem test_decode_statrd : dec 0b00000010_000000000000000000000000#32 = some .statrd := by decide
theorem test_decode_keywr : dec 0b00010000_0000000000000000000000_11#32 = some (.keywr 3 0) := by decide
theorem test_decode_keyinit : dec 0b00010001_0000000000000000_00110000#32 = some (.keyinit 48) := by decide
theorem test_decode_begin : dec 0b00100000_000000000000000000000000#32 = some .begin := by decide
theorem test_decode_adpush : dec 0b00100001_000000000000000_1_000_01000#32 = some (.adpush 8 true 0) := by decide
theorem test_decode_adpush_more : dec 0b00100001_000000000000000_0_000_10000#32 = some (.adpush 16 false 0) := by decide
theorem test_decode_msgpush : dec 0b00100010_0000000000000000000_01110#32 = some (.msgpush 14 0) := by decide
theorem test_decode_encrypt : dec 0b00110000_000000000000000000000000#32 = some .encrypt := by decide
theorem test_decode_decrypt : dec 0b00110001_000000000000000000000000#32 = some .decrypt := by decide
theorem test_decode_outrd : dec 0b01000000_111111111111111111111111#32 = some (.outrd 16777215) := by decide
/-- The `data` word of the table's numbering reaches the operand. -/
theorem test_decode_data : decodeTableWord 160 (0x10000001 + 0xfe * 2 ^ 32) = some (.keywr 1 0xfe) := by decide

/-- V14, the words that are Illegal. -/
theorem test_decode_illegal :
    ([0x00000001#32, 0x00800000#32, 0x01000100#32, 0x02ffffff#32, 0x03000000#32, 0x10000004#32, 0x10010000#32,
      0x11000100#32, 0x12000000#32, 0x20000001#32, 0x41000000#32, 0x80000000#32, 0xffffffff#32].map dec).all
      (· == none) = true := by decide
/-- V14, more of them. -/
theorem test_decode_illegal_beats :
    ([0x21000000#32, 0x2100000f#32, 0x21000011#32, 0x21000111#32, 0x2100011f#32, 0x21000030#32, 0x21000210#32,
      0x21800010#32, 0x22000000#32, 0x22000011#32, 0x22000020#32, 0x22000110#32, 0x23000000#32, 0x30000001#32,
      0x31800000#32, 0x32000000#32].map dec).all (· == none) = true := by decide

/-! ## The units -/

/-- V2: the carry selects the xor with 0x87; a byte carry; both kinds. -/
theorem test_dbl :
    [0x80000000000000000000000000000000#128, 0xffffffffffffffffffffffffffffffff#128,
      0x00000000000000000000000000000080#128, 0xec03f8c4dd03c0e64ffa50ad3403f6bc#128].map dbl =
    [0x87#128, 0xffffffffffffffffffffffffffffff79#128, 0x100#128, 0xd807f189ba0781cc9ff4a15a6807edff#128] := by decide
/-- V3. -/
theorem test_pad :
    pad [] (by decide) = 0x80000000000000000000000000000000#128 ∧
    pad [0x11, 0x22, 0x33, 0x44, 0x55, 0x66, 0x77, 0x88, 0x99, 0xaa, 0xbb, 0xcc, 0xdd, 0xee] (by decide) =
      0x112233445566778899aabbccddee8000#128 := by decide
/-- V4, 17 bytes. -/
theorem test_xorend :
    xorend ((List.range 17).map (BitVec.ofNat 8)) 0xedf09de876c642ee4d78bce4ceedfc4f#128 (by decide) =
      0#8 :: topBytes 16 0xecf29eec73c045e64472b7e8c3e3f35f#128 := by decide
/-- V6, the rows that separate the readings of 90_conflicts C1. -/
theorem test_q_mask :
    qMask 0x0000000000000000c0000000c0000000#128 = 0x00000000000000004000000040000000#128 ∧
    qMask 0x28c5033d8365f7c239cb7e2cdba5747e#128 = 0x28c5033d8365f7c239cb7e2c5ba5747e#128 := by decide
/-- V7: the wrap does not carry into byte 11; a carry between bytes. -/
theorem test_inc32 :
    inc32 0x0102030405060708090a0b0cffffffff#128 = 0x0102030405060708090a0b0c00000000#128 ∧
    inc32 0x000000000000000000000000000000ff#128 = 0x00000000000000000000000000000100#128 := by decide
/-- V13: two differences do not cancel; a difference in the first byte. -/
theorem test_ct_eq :
    ctAcc 0x01020000000000000000000000000000#128 0x02010000000000000000000000000000#128 = 0x03#8 ∧
    ctEq 0x85632d07c6e8f37f950acd320a2ecc93#128 0x05632d07c6e8f37f950acd320a2ecc93#128 = false := by decide

/-! ## V1 through the machine (P1) -/

/-- The values of `E` that V1 prints: key, input, output. -/
def tableV1 : List (Nat × Block × Block) :=
  [(0xfffefdfcfbfaf9f8f7f6f5f4f3f2f1f0, 0, 0x7601fc626e81e07327fd28569a01fb5e),
   (0xfffefdfcfbfaf9f8f7f6f5f4f3f2f1f0, 0xec03f8c4dd03c0e64ffa50ad3403f6bc, 0x0e04dfafc1efbf040140582859bf073a),
   (0xfffefdfcfbfaf9f8f7f6f5f4f3f2f1f0, 0x101112131415161718191a1b1c1d1e1f, 0xd81e73df30857d8216138fccbbe947c2),
   (0xfffefdfcfbfaf9f8f7f6f5f4f3f2f1f0, 0x2038a075aea7da6909e72e96d3eeaa3d, 0xf1f922b7f5193ce64ff80cb47d93f23b),
   (0xfffefdfcfbfaf9f8f7f6f5f4f3f2f1f0, 0xcac30894b8eaf254035bc20540357819 ^^^ 0xec03f8c4dd03c0e64ffa50ad3403f6bc,
    0x85632d07c6e8f37f950acd320a2ecc93),
   (0xf0f1f2f3f4f5f6f7f8f9fafbfcfdfeff, 0x85632d07c6e8f37f150acd320a2ecc93, 0x51e218d2c5a2ab8c4345c4a623b2f08f)]

/-- The core of V1: that table as `E`, `BUF_CAP = 4096`. -/
def cfgV1 : Config where
  E := fun k b => ((tableV1.find? fun r => r.1 == natOfBytes k && r.2.1 == b).map (·.2.2)).getD 0
  capCode := 254

/-- The next state, where there is one. -/
def after (r : Result) : Option State :=
  match r with
  | .next s => some s
  | .fault _ => none
  | .refused _ => none

/-- The last response. -/
def lastRsp (r : Result) : Option Response := (after r).bind (·.rsps.getLast?)

/-- A core keyed with V1's key in phase `p`. -/
def keyed (p : Phase) : State :=
  { State.reset with
    phase := p, ksel := .k16,
    macKey := 0xfffefdfcfbfaf9f8f7f6f5f4f3f2f1f0#128 ++ 0#128,
    ctrKey := 0xf0f1f2f3f4f5f6f7f8f9fafbfcfdfeff#128 ++ 0#128,
    k1 := 0xec03f8c4dd03c0e64ffa50ad3403f6bc, k2 := 0xd807f189ba0781cc9ff4a15a6807edff }

/-- The staged key of P1. -/
def stagedV1 : State :=
  { State.reset with
    kw := #v[0xfffefdfcfbfaf9f8f7f6f5f4f3f2f1f0, 0xf0f1f2f3f4f5f6f7f8f9fafbfcfdfeff, 0, 0], kwValid := 3 }

/-- The message of P1. -/
def plainV1 : ByteString := [0x11, 0x22, 0x33, 0x44, 0x55, 0x66, 0x77, 0x88, 0x99, 0xaa, 0xbb, 0xcc, 0xdd, 0xee]

/-- The envelope of V1. -/
def envelopeV1 : ByteString :=
  topBytes 16 0x85632d07c6e8f37f950acd320a2ecc93#128 ++ topBytes 14 0x40c02b9690c4dc04daef7f6afe5c0000#128

/-- R162, worked example. -/
theorem test_keywr :
    (after (execKeywr 1 0xf0f1f2f3f4f5f6f7f8f9fafbfcfdfeff State.reset)).map (fun t => (t.kw, t.kwValid)) =
      some (#v[0, 0xf0f1f2f3f4f5f6f7f8f9fafbfcfdfeff, 0, 0], 2) := by decide
/-- R163, worked example: keys, subkeys, `ksel`, phase. -/
theorem test_keyinit : (after (execKeyinitAt cfgV1 32 stagedV1)).map (fun t => { t with rsps := [] }) =
    some (keyed .ready) := by decide
/-- P3: word 1 absent. -/
theorem test_keyinit_absent :
    lastRsp (execKeyinitAt cfgV1 48 { stagedV1 with kwValid := 5 }) = some ⟨.construct, 0⟩ := by decide
/-- R170, worked example. -/
theorem test_begin : (after (execBeginAt cfgV1 (keyed .ready))).map (fun t => (t.phase, t.d)) =
    some (.collect, 0x0e04dfafc1efbf040140582859bf073a) := by decide
/-- P1: `cmac_x` and `ad_open` after the first beat. -/
theorem test_adpush_more :
    (after (execAdpushAt cfgV1 16 false 0x101112131415161718191a1b1c1d1e1f (keyed .collect))).map
      (fun t => (t.cmacX, t.adOpen)) = some (0xd81e73df30857d8216138fccbbe947c2, true) := by decide
/-- R171, worked example: `d` after the final beat; the bytes beyond `nbytes` do not count. P6: an empty final beat. -/
theorem test_adpush_last :
    (after (execAdpushAt cfgV1 8 true 0x2021222324252627ffffffffffffffff
      { keyed .collect with
        d := 0x0e04dfafc1efbf040140582859bf073a, cmacX := 0xd81e73df30857d8216138fccbbe947c2, adOpen := true })).map
      (fun t => (t.d, t.cmacX, t.adOpen)) = some (0xedf09de876c642ee4d78bce4ceedfc4f, 0, false) ∧
    lastRsp (execAdpushAt cfgV1 0 true 0 { keyed .collect with adOpen := true }) = some ⟨.proto, 0⟩ := by decide
/-- V16: byte order, unused bytes ignored, `msg_closed`. -/
theorem test_msgpush :
    (after (execMsgpushAt cfgV1 3 0x010203ffffffffffffffffffffffffff (keyed .collect))).map
      (fun t => (t.ibuf, t.msgClosed)) = some ([1, 2, 3], true) := by decide
/-- P7: `BUF_CAP = 32` is full. -/
theorem test_msgpush_overflow :
    lastRsp (execMsgpushAt { cfgV1 with capCode := 0 } 1 0 { keyed .collect with ibuf := zeros 32 }) =
      some ⟨.overflow, 0⟩ := by decide
/-- R173, worked example: the document's RFC 5297 A.1 vector. -/
theorem test_encrypt :
    (after (execEncryptAt cfgV1
      { keyed .collect with d := 0xedf09de876c642ee4d78bce4ceedfc4f, ibuf := plainV1, msgClosed := true })).map
      (fun t => (t.phase, t.obuf, t.ibuf)) = some (.done, envelopeV1, []) := by decide
/-- P7: a full buffer leaves no room for the envelope. -/
theorem test_encrypt_overflow :
    lastRsp (execEncryptAt { cfgV1 with capCode := 0 } { keyed .collect with ibuf := zeros 32 }) =
      some ⟨.overflow, 0⟩ := by decide
set_option maxRecDepth 4000 in
/-- R174, worked example. -/
theorem test_decrypt :
    (after (execDecryptAt cfgV1
      { keyed .collect with d := 0xedf09de876c642ee4d78bce4ceedfc4f, ibuf := envelopeV1, msgClosed := true })).map
      (fun t => (t.phase, t.obuf)) = some (.done, plainV1) := by decide
set_option maxRecDepth 4000 in
/-- V10: the bit the mask clears is compared all the same. -/
theorem test_decrypt_masked_bit :
    (after (execDecryptAt cfgV1
      { keyed .collect with
        d := 0xedf09de876c642ee4d78bce4ceedfc4f, ibuf := envelopeV1.set 8 0x15, msgClosed := true })).map
      (fun t => (t.phase, t.obuf, t.err)) = some (.ready, [], .auth) := by decide
/-- P1: the second block of the result, zero-filled. -/
theorem test_outrd : lastRsp (execOutrd 1 { keyed .done with obuf := envelopeV1 }) =
    some ⟨.ok, 0x40c02b9690c4dc04daef7f6afe5c0000⟩ := by decide
/-- P1: `OUTRD 2` of 30 bytes, and STATUS after it. -/
theorem test_outrd_beyond :
    (after (execOutrd 2 { keyed .done with obuf := envelopeV1 })).map statusWord =
      some 0x0000000000000000000000000000040d := by decide
/-- V15: a partial message in COLLECT, and a result in DONE. -/
theorem test_statrd :
    lastRsp (execStatrd { keyed .collect with msgClosed := true, ibuf := plainV1 }) =
      some ⟨.ok, 0x00000000000000000000000e0000004e⟩ ∧
    lastRsp (execStatrd { keyed .done with obuf := envelopeV1 }) =
      some ⟨.ok, 0x000000000000001e000000000000000f⟩ := by decide
/-- P3: `kw_valid = 0101`, `err = 1`. -/
theorem test_statrd_staging :
    lastRsp (execStatrd { State.reset with kwValid := 5, err := .construct }) =
      some ⟨.ok, 0x00000000000000000000000000005100⟩ := by decide
/-- R161, worked example: then STATUS is zero. -/
theorem test_zeroize : (after (execZeroize { keyed .done with obuf := envelopeV1 })).map
    (fun t => (t.macKey, statusWord t)) = some (0, 0) := by decide
/-- R160, worked example. -/
theorem test_nop : (after (execNop { keyed .collect with ibuf := plainV1 })).map (fun t => (t.phase, t.ilen)) =
    some (.collect, 14) := by decide

/-! ## Steps -/

/-- P3: BEGIN with no key, as the first command after reset. -/
theorem test_step_begin_unkeyed : (after (step (State.reset.withFetchWord 32 0x20000000))).map statusWord =
    some 0x00000000000000000000000000000400 := by decide
/-- P3: a reserved bit. -/
theorem test_step_illegal : lastRsp (step (State.reset.withFetchWord 32 0x10000004)) = some ⟨.illegal, 0⟩ := by decide
/-- R231: the reset event. -/
theorem test_step_reset : after (step { keyed .done with inbox := [.reset] }) = some State.reset := by decide

/-! ## Witnesses of the hypotheses of the obligations -/

open Sys2Proof.Claims Sys2Proof.Safety

theorem room_for_two_blocks : 32 ≤ Config.chip.bufCap := by rw [Config.bufCap]; omega

/-- `L = E(mac_key, ZERO)` of the all-zero 16-byte key. -/
def chipL : Block := Config.chip.E (topBytes 16 (0 : BitVec 256)) 0

/-- The core keyed with the all-zero key, in phase `p`, nothing in progress. -/
def ks (p : Phase) : State := { State.reset with phase := p, ksel := .k16, k1 := dbl chipL, k2 := dbl (dbl chipL) }

theorem ks_inv (p : Phase) (h : p ≠ .unkeyed) : Inv Config.chip (ks p) where
  unkeyed_iff := ⟨fun e => absurd e h, fun e => nomatch e⟩
  no_key e := nomatch e
  staging_clear _ := ⟨rfl, rfl⟩
  chain_clear _ := ⟨rfl, rfl, rfl, rfl, rfl⟩
  output_clear _ := rfl
  cmac_clear _ := rfl
  append_aligned _ := rfl
  capacity := by simp [ks]
  subkeys_cached _ := by constructor <;> simp only [ks, macE, chipL, KSel.ksize, State.reset]
  keys_left_aligned := by simp [ks]

/-- The SIV the keyed core computes for the empty message and no associated data. -/
def sivEmpty : Block := cmacWith (macE Config.chip (ks .collect)) (ks .collect).k1 (ks .collect).k2 (s2vLast 0 [])

/-- COLLECT with an envelope of no ciphertext and the SIV `siv`. -/
def withSiv (siv : Block) : State := { ks .collect with ibuf := topBytes 16 siv, d := 0 }

theorem withSiv_parts (siv : Block) :
    (withSiv siv).ilen = 16 ∧ packBytes 128 ((withSiv siv).ibuf.take 16) = siv ∧ (withSiv siv).ibuf.drop 16 = [] := by
  refine ⟨by simp [withSiv], ?_, by simp [withSiv]⟩
  rw [withSiv, List.take_of_length_le (by simp)]
  simp

theorem withSiv_tag (siv : Block) : cmacWith (macE Config.chip (withSiv siv)) (withSiv siv).k1 (withSiv siv).k2
    (s2vLast (withSiv siv).d []) = sivEmpty := by simp only [sivEmpty, withSiv, macE, ks]

/-- Reset, ResetClearsEveryElement, ResetEventGivesTheResetState, ErrKeepsTheLastFailure. -/
theorem witness_reset_event : ({ State.reset with inbox := [.reset, .reset] } : State).inbox = .reset :: [.reset] := rfl
/-- DecodeOfEncodeIsTheCommand: the boundary operands of the two constrained commands. -/
theorem witness_well_formed :
    [Instr.adpush 0 true 5, .adpush 16 true 5, .adpush 16 false 5, .msgpush 1 5, .msgpush 16 5, .keyinit 255].all
      Instr.wellFormed = true := by decide
/-- LegalWordIsTheEncodingOfItsCommand, ExactlyOneRowSelectsALegalWord, IgnoredDataHasNoEffect: a word with a data
operand and one without. -/
theorem witness_legal_word :
    decode 0x22000001#32 7 = .ok (.msgpush 1 7) ∧ decode 0x20000000#32 7 = .ok .begin ∧
      ∃ r, opcodeMap[6]? = some r ∧ r.selects 0x21000100#32 :=
  ⟨by rfl, by rfl, _, rfl, by decide, by decide⟩
/-- IgnoredDataHasNoEffect, first clause: beats that differ beyond their valid bytes. -/
theorem witness_ignored_bytes :
    topBytes (3 : Fin 17).val (0x010203ff#32 ++ 0#96 : Block) = topBytes (3 : Fin 17).val (0x01020300#32 ++ 1#96 : Block) ∧
      topBytes (0 : Fin 17).val (1 : Block) = topBytes (0 : Fin 17).val (2 : Block) := by decide
/-- IllegalWordsAreTheFiveCases: a word of each case; IllegalCommandFailsWithEIllegal. -/
theorem witness_illegal_words :
    IllegalCase 0x03000000#32 ∧ IllegalCase 0x00000001#32 ∧ IllegalCase 0x21000111#32 ∧ IllegalCase 0x2100000f#32 ∧
      IllegalCase 0x22000000#32 ∧ IllegalCase 0x22000011#32 ∧ ¬IllegalCase 0x22000010#32 ∧
      decodeRecord (mkRecord 0x00000001#32 0) = .error .reservedBit := by
  unfold IllegalCase
  exact ⟨by decide, by decide, by decide, by decide, by decide, by decide, by decide, by rfl⟩
/-- The statements about a command event: StepRunsTheDecodedCommand, EveryCommandGivesOneResponse,
FailIsTheFailClosedAbort, FirstFailingCheckIsReported, PhaseFollowsTheTable. STATRD, OUTRD that responds OK, a command
whose entry is `P`, one that is legal. -/
theorem witness_command_events :
    decodeRecord (encode .statrd) = .ok .statrd ∧ decodeRecord (encode (.outrd 1)) = .ok (.outrd 1) ∧
      decodeRecord (encode .begin) = .ok .begin ∧ phaseTable .begin .unkeyed = none ∧
      phaseTable .statrd .unkeyed = some .unkeyed ∧
      lastRsp (exec (.outrd 1) { keyed .done with obuf := zeros 17 }) = some ⟨.ok, 0⟩ := by
  exact ⟨by rfl, by rfl, by rfl, by rfl, by rfl, by decide⟩
/-- FirstFailingCheckIsReported: E_ILLEGAL, a code of the command's own, OK. -/
theorem witness_reported_codes :
    reportedCode (mkRecord 0x00000001#32 0) State.reset = .illegal ∧
      reportedCode (encode (.keyinit 48)) { State.reset with kwValid := 5 } = .construct ∧
      reportedCode (encode .nop) State.reset = .ok := by
  refine ⟨by rfl, ?_, by rfl⟩
  show firstFailure (.keyinit 48) { State.reset with kwValid := 5 } = .construct
  exact (if_neg (by decide)).trans (if_pos (.inr ⟨1, by decide, by decide⟩))
/-- StepWithoutEventChangesNothing. -/
theorem witness_no_event : State.reset.inbox = [] := rfl
/-- FailureStateDependsOnKeysAlone, AfterAFailureBeginIsAccepted: KEYWR in READY and OUTRD in COLLECT fail alike. -/
theorem witness_failures :
    ∃ t t', exec (.keywr 0 0) (ks .ready) = .next t ∧ t.rsps = (ks .ready).rsps ++ [⟨.proto, 0⟩] ∧
      exec (.outrd 0) { ks .collect with ibuf := [1] } = .next t' ∧ t'.rsps = [⟨.proto, 0⟩] ∧
      KeysKept (ks .ready) { ks .collect with ibuf := [1] } ∧ (ks .ready).ksel ≠ .none :=
  ⟨_, _, rfl, rfl, rfl, rfl, by simp only [KeysKept, ks, and_self], by decide⟩
/-- ErrKeepsTheLastFailure: a failing command, and an OK one of each kind. -/
theorem witness_err :
    (after (exec (.outrd 0) (ks .ready))).map (·.err) = some .proto ∧
      (after (exec .zeroize { ks .ready with err := .auth })).map (·.err) = some .ok ∧
      (after (exec .nop { ks .ready with err := .auth })).map (·.err) = some .auth := by decide
/-- KeywrWritesOneKeyWord. -/
theorem witness_keywr : State.reset.phase = .unkeyed := rfl
/-- KeyinitInstallsTheKey: each length with exactly the words it needs. -/
theorem witness_keyinit :
    ((32 : Fin 256) ∈ [32, 48, 64] ∧ ∀ i, i < (32 : Fin 256).val / 16 → (3#4).getLsbD i = true) ∧
      ((48 : Fin 256) ∈ [32, 48, 64] ∧ ∀ i, i < (48 : Fin 256).val / 16 → (7#4).getLsbD i = true) ∧
      ((64 : Fin 256) ∈ [32, 48, 64] ∧ ∀ i, i < (64 : Fin 256).val / 16 → (15#4).getLsbD i = true) ∧
      ({ State.reset with kwValid := 3#4 } : State).phase = .unkeyed := by decide
/-- BeginOpensATransaction: both phases, and the invariant. -/
theorem witness_begin :
    (ks .ready).phase = .ready ∧ (ks .done).phase = .done ∧ Inv Config.chip (ks .ready) ∧ Inv Config.chip (ks .done) :=
  ⟨rfl, rfl, ks_inv _ (by decide), ks_inv _ (by decide)⟩
/-- AdpushAbsorbsANonFinalBeat, AdpushFinishesTheComponent: an empty component, and 15 and 16 bytes after a beat. -/
theorem witness_adpush :
    (ks .collect).phase = .collect ∧ ¬((0 : Fin 17) = 0 ∧ (ks .collect).adOpen = true) ∧ ¬((15 : Fin 17) = 0 ∧ true = true) ∧
      ¬((16 : Fin 17) = 0 ∧ true = true) := by decide
/-- MsgpushAppendsItsBytes: a full beat into the last free block; EncryptLeavesTheEnvelope: the longest plaintext. -/
theorem witness_last_block :
    (Instr.msgpush 16 0).wellFormed = true ∧
      ({ ks .collect with ibuf := zeros (Config.chip.bufCap - 16) } : State).ilen + (16 : Fin 17).val ≤ Config.chip.bufCap ∧
      ({ ks .collect with ibuf := zeros (Config.chip.bufCap - 16) } : State).ilen + 16 ≤ Config.chip.bufCap := by
  have h := room_for_two_blocks
  refine ⟨by decide, ?_, ?_⟩ <;> simp <;> omega
/-- MsgpushAppendsItsBytes: the shortest beat. -/
theorem witness_msgpush_one : (Instr.msgpush 1 0).wellFormed = true ∧ (ks .collect).msgClosed = false ∧
    (ks .collect).ilen + (1 : Fin 17).val ≤ Config.chip.bufCap := by
  have h := room_for_two_blocks
  refine ⟨by decide, rfl, ?_⟩
  show 0 + 1 ≤ _
  omega
/-- DecryptLeavesTheVerifiedPlaintext: an envelope that verifies, whatever the block cipher is. -/
theorem witness_decrypt_match : ∃ s siv pt, s.phase = .collect ∧ s.adOpen = false ∧ 16 ≤ s.ilen ∧
    siv = packBytes 128 (s.ibuf.take 16) ∧ pt = sivCtr (ctrE Config.chip s) siv (s.ibuf.drop 16) ∧
    cmacWith (macE Config.chip s) s.k1 s.k2 (s2vLast s.d pt) = siv := by
  obtain ⟨h1, h2, h3⟩ := withSiv_parts sivEmpty
  exact ⟨withSiv sivEmpty, sivEmpty, [], rfl, rfl, h1.ge, h2.symm, by rw [h3, sivCtr_nil], withSiv_tag _⟩
/-- DecryptMismatchFailsWithEAuth: an envelope that does not, whatever the block cipher is. -/
theorem witness_decrypt_mismatch : ∃ s siv pt, s.phase = .collect ∧ s.adOpen = false ∧ 16 ≤ s.ilen ∧
    siv = packBytes 128 (s.ibuf.take 16) ∧ pt = sivCtr (ctrE Config.chip s) siv (s.ibuf.drop 16) ∧
    cmacWith (macE Config.chip s) s.k1 s.k2 (s2vLast s.d pt) ≠ siv := by
  obtain ⟨h1, h2, h3⟩ := withSiv_parts (~~~sivEmpty)
  refine ⟨withSiv (~~~sivEmpty), ~~~sivEmpty, [], rfl, rfl, h1.ge, h2.symm, by rw [h3, sivCtr_nil], ?_⟩
  rw [withSiv_tag]
  intro h
  have h0 := congrArg (·.getLsbD 0) h
  simp at h0
/-- OutrdReturnsTheBlock: the last, partial block. -/
theorem witness_outrd : ({ ks .done with obuf := zeros 17 } : State).phase = .done ∧
    16 * (1 : Fin 16777216).val < ({ ks .done with obuf := zeros 17 } : State).olen := by decide
/-- The units: the boundary lengths and indices. -/
theorem witness_units :
    (14 < 15 ∧ 127 < 128) ∧ (zeros 15).length ≤ 15 ∧ (zeros 1 ≠ []) ∧ 16 ≤ (zeros 16).length ∧
      16 * 1 + 0 < (zeros 17).length ∧ Config.chip.bufCap / 16 - 1 < Config.chip.bufCap / 16 := by
  have h := room_for_two_blocks
  refine ⟨by decide, by decide, by decide, by decide, by decide, ?_⟩
  omega
/-- StepKeepsTheInvariant, InstalledKeyChangesOnlyByKeyCommands, OutputComesOnlyFromEncryptOrVerifiedDecrypt: a step that
drops the key. -/
theorem witness_step : ∃ t, Inv Config.chip { ks .ready with inbox := [.command (encode .zeroize)] } ∧
    step { ks .ready with inbox := [.command (encode .zeroize)] } = .next t ∧ t.macKey = 0 :=
  ⟨_, (ks_inv .ready (by decide)).withInbox [.command (encode .zeroize)],
    step_ok (s := { ks .ready with inbox := [.command (encode .zeroize)] }) (i := .zeroize) (c := encode .zeroize) rfl
      (by rfl) ⟨rfl, rfl⟩, rfl⟩
/-- AppendAddressIsAligned: an accepted MSGPUSH. -/
theorem witness_append : ∃ t, exec (.msgpush 1 0) (ks .collect) = .next t ∧ t.rsps = (ks .collect).rsps ++ [⟨.ok, 0⟩] :=
  ⟨_, exec_ok (i := .msgpush 1 0) ⟨rfl, rfl, witness_msgpush_one.2.2, rfl, rfl⟩, rfl⟩
/-- HostCannotSeeTheSecrets, CryptographicCommandsRespondWithCodesOnly: two states that differ in keys and message. -/
theorem witness_same_view :
    SameView { ks .collect with ibuf := [1] } { ks .collect with ibuf := [2], macKey := 1, ctrKey := 2, k1 := 3, d := 4 } ∧
      ∃ t, step { ks .collect with ibuf := [1] } = .next t :=
  ⟨⟨rfl, rfl, rfl, rfl, rfl, rfl, rfl, rfl, rfl, rfl⟩, _, rfl⟩
/-- KeySequenceInstallsTheKey: each length, from reset. -/
theorem witness_key_sequence : Inv Config.chip State.reset ∧ State.reset.phase = .unkeyed ∧ (zeros 32).length = 32 ∧
    (zeros 48).length = 48 ∧ (zeros 64).length = 64 ∧ (zeros 64).length ≤ 64 := by
  refine ⟨?_, rfl, by decide, by decide, by decide, by decide⟩
  constructor <;> simp
/-- InterleavedBeatsFoldToS2v: a message beat between the beats of a component, unused bytes not zero. -/
theorem witness_interleaved :
    let is : List Instr := [.adpush 16 false 0, .msgpush 1 (0x02ff#16 ++ 0#112), .adpush 1 true (0x00ff#16 ++ 0#112)]
    (is.map zeroFilled).filter isAdpush = [zeros 17].flatMap adSeq ∧
      (is.map zeroFilled).filter (fun i => !isAdpush i) = msgSeq [2] ∧ [2#8].length ≤ Config.chip.bufCap := by
  have h := room_for_two_blocks
  refine ⟨by decide, by decide, ?_⟩
  show 1 ≤ _
  omega
/-- EncryptTransactionIsSivEncrypt, EncryptOperationReturnsTheEnvelope: the longest plaintext. -/
theorem witness_encrypt_transaction :
    (zeros (Config.chip.bufCap - 16)).length + 16 ≤ Config.chip.bufCap := by
  have h := room_for_two_blocks
  simp
  omega
/-- DecryptTransactionIsSivDecrypt, DecryptOperationReturnsThePlaintext: too short; one that verifies and one that does not, whatever the block cipher is. -/
theorem witness_decrypt_transaction :
    (zeros 15).length < 16 ∧
      (∃ v : ByteString, 16 ≤ v.length ∧ v.length ≤ Config.chip.bufCap ∧ s2v (macE Config.chip (ks .ready)) []
        (sivCtr (ctrE Config.chip (ks .ready)) (packBytes 128 (v.take 16)) (v.drop 16)) = packBytes 128 (v.take 16)) ∧
      ∃ v : ByteString, 16 ≤ v.length ∧ v.length ≤ Config.chip.bufCap ∧ s2v (macE Config.chip (ks .ready)) []
        (sivCtr (ctrE Config.chip (ks .ready)) (packBytes 128 (v.take 16)) (v.drop 16)) ≠ packBytes 128 (v.take 16) := by
  have h := room_for_two_blocks
  have parts : ∀ b : Block, (topBytes 16 b).length = 16 ∧ packBytes 128 ((topBytes 16 b).take 16) = b ∧
      (topBytes 16 b).drop 16 = [] := fun b => ⟨by simp, by rw [List.take_of_length_le (by simp)]; simp, by simp⟩
  refine ⟨by decide, ⟨topBytes 16 (s2v (macE Config.chip (ks .ready)) [] []), ?_⟩,
    ⟨topBytes 16 (~~~(s2v (macE Config.chip (ks .ready)) [] [])), ?_⟩⟩
  · obtain ⟨h1, h2, h3⟩ := parts (s2v (macE Config.chip (ks .ready)) [] [])
    rw [h2, h3]
    exact ⟨by omega, by omega, rfl⟩
  · obtain ⟨h1, h2, h3⟩ := parts (~~~(s2v (macE Config.chip (ks .ready)) [] []))
    rw [h2, h3]
    refine ⟨by omega, by omega, fun e => ?_⟩
    have h0 := congrArg (·.getLsbD 0) e
    simp at h0
/-- OutSequenceReadsTheResult: a result with a partial last block, read by the two commands of its OUT sequence; and the
longest result. -/
theorem witness_out_sequence :
    ({ ks .done with obuf := zeros 17 } : State).phase = .done ∧
      ({ ks .done with obuf := zeros 17 } : State).olen ≤ Config.chip.bufCap ∧
      outSeq ({ ks .done with obuf := zeros 17 } : State).olen = [.outrd 0, .outrd 1] ∧
      ({ ks .done with obuf := zeros Config.chip.bufCap } : State).olen ≤ Config.chip.bufCap := by
  have h := room_for_two_blocks
  refine ⟨rfl, ?_, by decide, by simp⟩
  simp
  omega
/-- 00_scope R11: the command sequences of the four operations, on the shortest inputs. -/
theorem test_operations :
    newOperation [] (by decide) = [.keyinit 0] ∧
      encryptOperation [] [] = [.begin, .encrypt, .outrd 0] ∧
      decryptOperation [[]] (zeros 17) true =
        [.begin, .adpush 0 true 0, .msgpush 16 0, .msgpush 1 0, .decrypt, .outrd 0] ∧
      decryptOperation [] (zeros 17) false = [.begin, .msgpush 16 0, .msgpush 1 0, .decrypt] ∧
      dropOperation = [.zeroize] := by decide
/-- DecryptTransactionInvertsEncrypt: the encryption of the empty message runs. -/
theorem witness_encrypt_runs : ∃ t, Runs (ks .ready) (encryptSeq [] []) t := by
  have h := room_for_two_blocks
  have hcap : 0 + 16 ≤ Config.chip.bufCap := by omega
  have h1 := run_issue_ok (i := .begin) (is := [.encrypt]) (s := ks .ready) (by rfl) ⟨.inl rfl, rfl, rfl⟩
  have h2 := run_issue_ok (i := .encrypt) (is := [])
    (s := ((ks .ready).openTransaction (s2vInitWith (macE Config.chip (ks .ready)) (ks .ready).k1 (ks .ready).k2)).emit .ok 0)
    (by rfl) ⟨rfl, rfl, hcap, rfl, rfl⟩
  exact ⟨_, h1.trans h2⟩

end Sys2Proof.Tests
end

/-! PROOFS. The decoder on encoded commands (30_encoding R78, R91). -/

namespace Sys2Proof

@[simp] theorem encodeCtrl_opcode (i : Instr) : (encodeCtrl i).extractLsb' 24 8 = opcodeByte i :=
  BitVec.extractLsb'_append_eq_left

/-- A bit field below the opcode is that of the argument. -/
theorem encodeCtrl_field (i : Instr) {lo len : Nat} (h : lo + len ≤ 24) :
    (encodeCtrl i).extractLsb' lo len = (argField i).extractLsb' lo len :=
  BitVec.extractLsb'_append_eq_of_add_le h

theorem encodeCtrl_bit (i : Instr) {n : Nat} (h : n < 24) : (encodeCtrl i).getLsbD n = (argField i).getLsbD n := by
  rw [encodeCtrl, BitVec.getLsbD_append, if_pos h]

theorem argument_field_toNat (n lo len : Nat) :
    ((BitVec.ofNat 24 n).extractLsb' lo len).toNat = n % 2 ^ 24 / 2 ^ lo % 2 ^ len := by
  rw [BitVec.extractLsb'_toNat, Nat.shiftRight_eq_div_pow, BitVec.toNat_ofNat]

/-- An operand of `len` bits reads back from the low field it is written to. -/
theorem argument_low_field {len : Nat} (n : Fin (2 ^ len)) (h : len ≤ 24) :
    ((BitVec.ofNat 24 n.val).extractLsb' 0 len).toFin = n := by
  have hn : n.val < 2 ^ 24 := Nat.lt_of_lt_of_le n.isLt (Nat.pow_le_pow_right (by decide) h)
  apply Fin.ext
  show ((BitVec.ofNat 24 n.val).extractLsb' 0 len).toNat = n.val
  rw [argument_field_toNat, Nat.mod_eq_of_lt hn, Nat.pow_zero, Nat.div_one, Nat.mod_eq_of_lt n.isLt]

/-- The fields above an operand of `lo` bits are zero. -/
theorem argument_high_field {n lo : Nat} (len : Nat) (h : n < 2 ^ lo) :
    (BitVec.ofNat 24 n).extractLsb' lo len = 0 := by
  have hn : n % 2 ^ 24 < 2 ^ lo := Nat.lt_of_le_of_lt (Nat.mod_le _ _) h
  apply BitVec.eq_of_toNat_eq
  rw [argument_field_toNat, Nat.div_eq_of_lt hn]
  rfl

theorem adpush_argument_fields (nbytes : Fin 17) (last : Bool) (data : Block) :
    (argField (.adpush nbytes last data)).extractLsb' 9 15 = 0 ∧
      (argField (.adpush nbytes last data)).extractLsb' 5 3 = 0 ∧
      ((argField (.adpush nbytes last data)).extractLsb' 0 5).toNat = nbytes.val ∧
      (argField (.adpush nbytes last data)).getLsbD 8 = last := by
  simp only [argField]
  revert nbytes last
  decide

theorem decodeN_encode {i : Instr} (h : argField i = 0) : decodeN (encodeCtrl i) i = .ok i := by
  rw [decodeN, encodeCtrl_field i (by omega), h]
  rfl

theorem decodeK_encode (idx : Fin 4) (data : Block) :
    decodeK (encodeCtrl (.keywr idx data)) data = .ok (.keywr idx data) := by
  rw [decodeK, encodeCtrl_field _ (by omega), encodeCtrl_field _ (by omega), argField,
    if_pos (argument_high_field (lo := 2) 22 idx.isLt), argument_low_field (len := 2) idx (by omega)]

theorem decodeL_encode (klen : Fin 256) : decodeL (encodeCtrl (.keyinit klen)) = .ok (.keyinit klen) := by
  rw [decodeL, encodeCtrl_field _ (by omega), encodeCtrl_field _ (by omega), argField,
    if_pos (argument_high_field (lo := 8) 16 klen.isLt), argument_low_field (len := 8) klen (by omega)]

theorem decodeR_encode (blk : Fin 16777216) : decodeR (encodeCtrl (.outrd blk)) = .ok (.outrd blk) := by
  rw [decodeR, encodeCtrl_field _ (by omega), argField, argument_low_field (len := 24) blk (by omega)]

theorem decodeB_encode {nbytes : Fin 17} {last : Bool} {data : Block}
    (h : (Instr.adpush nbytes last data).wellFormed = true) :
    decodeB (encodeCtrl (.adpush nbytes last data)) data = .ok (.adpush nbytes last data) := by
  obtain ⟨hhigh, hmid, hlen, hlast⟩ := adpush_argument_fields nbytes last data
  have full : last = true ∨ nbytes.val = 16 := by simpa [Instr.wellFormed, Fin.ext_iff] using h
  simp only [decodeB, encodeCtrl_field, encodeCtrl_bit, Nat.reduceAdd, Nat.reduceLeDiff, Nat.reduceLT, hhigh, hmid,
    hlen, hlast, full, and_self, if_true, nbytes.isLt, dif_pos]

theorem decodeM_encode {nbytes : Fin 17} {data : Block} (h : (Instr.msgpush nbytes data).wellFormed = true) :
    decodeM (encodeCtrl (.msgpush nbytes data)) data = .ok (.msgpush nbytes data) := by
  have hhigh : (argField (.msgpush nbytes data)).extractLsb' 5 19 = 0 := argument_high_field 19 (by omega)
  have hlen : ((argField (.msgpush nbytes data)).extractLsb' 0 5).toNat = nbytes.val := by
    rw [argField, argument_field_toNat]; omega
  have nonempty : 1 ≤ nbytes.val := by simpa [Instr.wellFormed] using h
  simp only [decodeM, encodeCtrl_field, Nat.reduceAdd, Nat.reduceLeDiff, hhigh, hlen, nonempty, if_true,
    nbytes.isLt, dif_pos]

/-- Decoding the record of a well-formed command gives the command back. -/
theorem decodeRecord_encode {i : Instr} (h : i.wellFormed = true) : decodeRecord (encode i) = .ok i := by
  rw [encode, decodeRecord_mkRecord, decode, encodeCtrl_opcode]
  cases i with
  | nop => exact decodeN_encode rfl
  | zeroize => exact decodeN_encode rfl
  | statrd => exact decodeN_encode rfl
  | keywr idx data => exact decodeK_encode idx data
  | keyinit klen => exact decodeL_encode klen
  | begin => exact decodeN_encode rfl
  | adpush nbytes last data => exact decodeB_encode h
  | msgpush nbytes data => exact decodeM_encode h
  | encrypt => exact decodeN_encode rfl
  | decrypt => exact decodeN_encode rfl
  | outrd blk => exact decodeR_encode blk

end Sys2Proof

/-! PROOFS. The units on the beats of a byte string: CMAC in its streaming form, the comparator, the parts of an
envelope, the blocks of a result. -/

namespace Sys2Proof.Machine

/-! ## Beats of a byte string (30_encoding R93) -/

/-- A slice continues the bytes before it. -/
theorem take_append_slice (m : ByteString) {a b : Nat} (h : a ≤ b) : m.take a ++ slice m a b = m.take b := by
  have e : m.take a = (m.take b).take a := by rw [List.take_take, Nat.min_eq_left h]
  rw [slice, e, List.take_append_drop]

/-- The valid bytes of beat `j` of a message are the message's slice. -/
theorem beatBytes_blockAt (m : ByteString) (j : Nat) :
    beatBytes (Fin.ofNat 17 (min 16 (m.length - 16 * j))) (blockAt m j) = slice m (16 * j) (16 * j + 16) := by
  have hl : (slice m (16 * j) (16 * j + 16)).length = min 16 (m.length - 16 * j) := by rw [slice_length]; omega
  have hn : (Fin.ofNat 17 (min 16 (m.length - 16 * j))).val = (slice m (16 * j) (16 * j + 16)).length := by
    rw [hl]; exact Nat.mod_eq_of_lt (by omega)
  rw [beatBytes, hn, blockAt, topBytes_packBytes_self 128 _ (by omega)]

/-! ## The streaming CMAC over the beats of a string (41_cmac R115 to R117) -/

/-- A final beat of 16 bytes carries `K1`. -/
theorem cmacFinish_full (ek : Block → Block) (k1 k2 x w : Block) {nb : Fin 17} (h : nb.val = 16) :
    cmacFinish ek k1 k2 x w nb = ek (x ^^^ (w ^^^ k1)) := by
  rw [cmacFinish, dif_pos h, BitVec.xor_assoc]

/-- A shorter final beat with the bytes `v` is padded and carries `K2`. -/
theorem cmacFinish_partial (ek : Block → Block) (k1 k2 x w : Block) {nb : Fin 17} {v : ByteString}
    (hv : topBytes nb.val w = v) (fits : v.length ≤ 15) :
    cmacFinish ek k1 k2 x w nb = ek (x ^^^ (pad v fits ^^^ k2)) := by
  subst hv
  have short : nb.val ≠ 16 := by rw [topBytes_length] at fits; omega
  rw [cmacFinish, dif_neg short, BitVec.xor_assoc]

/-- The one empty beat of the empty component. -/
theorem cmacFinish_empty (ek : Block → Block) (k1 k2 : Block) :
    cmacFinish ek k1 k2 0 0 0 = cmacWith ek k1 k2 [] := by
  rw [cmacFinish_partial ek k1 k2 0 0 (v := []) rfl (by simp), cmacWith_short ek k1 k2 [] (by simp)]
  simp

/-- Absorbing all blocks but the last and finishing with the last one is the CMAC of a nonempty string. -/
theorem cmacFinish_beats (ek : Block → Block) (k1 k2 : Block) {m : ByteString} (h : m.length ≠ 0) :
    cmacFinish ek k1 k2 (((List.range (beatCount m.length - 1)).map (blockAt m)).foldl (cmacAbsorb ek) 0)
      (blockAt m (beatCount m.length - 1)) (Fin.ofNat 17 (m.length - 16 * (beatCount m.length - 1))) =
      cmacWith ek k1 k2 m := by
  have hnb : (Fin.ofNat 17 (m.length - 16 * (beatCount m.length - 1))).val =
      m.length - 16 * (beatCount m.length - 1) := Nat.mod_eq_of_lt (by rw [beatCount]; omega)
  by_cases hfull : m.length % 16 = 0
  · have hq : beatCount m.length = m.length / 16 := by rw [beatCount]; omega
    rw [cmacFinish_full ek k1 k2 _ _ (by omega), cmacWith_full ek k1 k2 (by omega) hfull, hq]
    rfl
  · have hq : beatCount m.length - 1 = m.length / 16 := by rw [beatCount]; omega
    have bytes := blockAt_last (m := m) (j := m.length / 16) (by omega)
    rw [hq] at hnb ⊢
    rw [cmacFinish_partial ek k1 k2 _ _ (by rw [hnb, bytes]) (by rw [List.length_drop]; omega),
      cmacWith_partial ek k1 k2 (by omega)]
    rfl

/-! ## The comparator (44_comparator R151) -/

theorem foldl_or_eq_zero (l : ByteString) (x : Byte) : l.foldl (· ||| ·) x = 0 ↔ x = 0 ∧ ∀ y ∈ l, y = 0 := by
  induction l generalizing x with
  | nil => simp
  | cons y l ih =>
    have hor : x ||| y = 0 ↔ x = 0 ∧ y = 0 := BitVec.or_eq_zero_iff
    rw [List.foldl_cons, ih, hor, and_assoc, List.forall_mem_cons]

theorem ctEq_iff (a b : Block) : ctEq a b = true ↔ a = b := by
  constructor
  · intro h
    have hacc : ctAcc a b = 0 := by simpa [ctEq] using h
    rw [ctAcc, xorBytes_topBytes, foldl_or_eq_zero] at hacc
    have hxor : topBytes 16 (a ^^^ b) = topBytes 16 (0 : Block) := by
      rw [← zeros_eq_topBytes]
      exact List.eq_replicate_iff.2 ⟨topBytes_length _ _, hacc.2⟩
    exact BitVec.xor_eq_zero_iff.1 (topBytes_injective _ _ hxor)
  · rintro rfl
    simp [ctEq]

/-! ## The parts of an envelope (20_memory R56) -/

theorem envelopeSiv_eq (v : ByteString) : envelopeSiv v = packBytes 128 (v.take 16) := by
  simp [envelopeSiv, memRead, slice]

theorem envelopeCt_eq (v : ByteString) : envelopeCt v = v.drop 16 := by
  rw [envelopeCt, memRead, slice, List.take_of_length_le (by omega)]

/-! ## Reading a result back, block by block (46_commands_transaction R175) -/

/-- The first `k` blocks OUTRD hands over: the result's bytes, then the zeros that fill the last block. -/
theorem flatMap_resultBlock (buf : ByteString) {k : Nat} (hk : k ≤ beatCount buf.length) :
    (List.range k).flatMap (fun j => topBytes 16 (resultBlock buf j)) =
      buf.take (16 * k) ++ zeros (16 * k - buf.length) := by
  induction k with
  | zero => simp
  | succ k ih =>
    have inside : 16 * k < buf.length := by rw [beatCount] at hk; omega
    have hz : 16 * k - buf.length = 0 := by omega
    have hfill : 16 - min 16 (buf.length - 16 * k) = 16 * (k + 1) - buf.length := by omega
    rw [List.range_succ, List.flatMap_append, ih (by omega), List.flatMap_singleton, topBytes_resultBlock, hz, hfill,
      zeros, List.replicate_zero, List.append_nil, ← List.append_assoc, take_append_slice buf (by omega)]
    rfl

end Sys2Proof.Machine

namespace Sys2Proof.Claims

open Sys2Proof.Machine

/-- OK responses with the blocks of a result read the result back. -/
theorem readsBack_resultBlocks (buf : ByteString) :
    ReadsBack (((List.range (beatCount buf.length)).map (resultBlock buf)).map (Response.mk .ok)) buf where
  ok r hr := by
    obtain ⟨w, -, rfl⟩ := List.mem_map.1 hr
    rfl
  count := by simp
  bytes := by
    rw [List.flatMap_map, List.flatMap_map, flatMap_resultBlock buf (Nat.le_refl _),
      List.take_of_length_le (by rw [beatCount]; omega)]

end Sys2Proof.Claims

/-! PROOFS. Sequences of commands that all respond OK, and the runs of the machine they give. -/

namespace Sys2Proof.Machine

/-- The OK case of a command does not look at the responses already given. -/
theorem OkCase.withRsps {i : Instr} {s u : State} {w : Block} (h : OkCase i s u w) (rs : List Response) :
    OkCase i { s with rsps := rs } { u with rsps := rs } w := by
  cases i with
  | nop => obtain ⟨rfl, e⟩ := h; exact ⟨rfl, e⟩
  | zeroize => obtain ⟨rfl, e⟩ := h; exact ⟨rfl, e⟩
  | statrd => obtain ⟨rfl, e⟩ := h; exact ⟨rfl, e⟩
  | keywr idx data => obtain ⟨hp, rfl, e⟩ := h; exact ⟨hp, rfl, e⟩
  | keyinit klen => obtain ⟨hp, h1, h2, rfl, e⟩ := h; exact ⟨hp, h1, h2, rfl, e⟩
  | begin => obtain ⟨hp, rfl, e⟩ := h; exact ⟨hp, rfl, e⟩
  | adpush nbytes last data => obtain ⟨hp, h1, rfl, e⟩ := h; cases last <;> exact ⟨hp, h1, rfl, e⟩
  | msgpush nbytes data => obtain ⟨hp, h1, h2, rfl, e⟩ := h; exact ⟨hp, h1, h2, rfl, e⟩
  | encrypt => obtain ⟨hp, h1, h2, rfl, e⟩ := h; exact ⟨hp, h1, h2, rfl, e⟩
  | decrypt => obtain ⟨hp, h1, h2, h3, rfl, e⟩ := h; exact ⟨hp, h1, h2, h3, rfl, e⟩
  | outrd blk => obtain ⟨hp, h1, rfl, e⟩ := h; exact ⟨hp, h1, rfl, e⟩

end Sys2Proof.Machine

namespace Sys2Proof.Claims

open Sys2Proof.Machine

/-- Running `is` from `s`, every command is well-formed and in its OK case, and leaves `t`; `ws` are the read data of
the responses. The responses themselves and the host's events are left out of the states; `OkRun.runs` ties it to the
machine. -/
inductive OkRun : State → List Instr → State → List Block → Prop
  | nil (s : State) : OkRun s [] s []
  | cons {i : Instr} {is : List Instr} {s u t : State} {w : Block} {ws : List Block}
      (wf : i.wellFormed = true) (ok : OkCase i s u w) (rest : OkRun u is t ws) : OkRun s (i :: is) t (w :: ws)

/-- All respond OK with no read data. -/
abbrev QuietRun (s : State) (is : List Instr) (t : State) : Prop := OkRun s is t (List.replicate is.length 0)

theorem OkRun.append {s u t : State} {is js : List Instr} {vs ws : List Block} (h : OkRun s is u vs)
    (hjs : OkRun u js t ws) : OkRun s (is ++ js) t (vs ++ ws) := by
  induction h with
  | nil s => exact hjs
  | cons wf ok _ ih => exact .cons wf ok (ih hjs)

theorem QuietRun.append {s u t : State} {is js : List Instr} (h : QuietRun s is u) (hjs : QuietRun u js t) :
    QuietRun s (is ++ js) t := by
  have := OkRun.append h hjs
  rwa [List.replicate_append_replicate, ← List.length_append] at this

/-- One command. -/
theorem OkRun.single {i : Instr} {s t : State} {w : Block} (wf : i.wellFormed = true) (ok : OkCase i s t w) :
    OkRun s [i] t [w] := .cons wf ok (.nil t)

/-- The first command of a sequence. -/
theorem Runs.cons {i : Instr} {is : List Instr} {s u t : State} {w : Block} (wf : i.wellFormed = true)
    (ok : OkCase i s u w) (h : Runs (u.emit .ok w) is t) : Runs s (i :: is) t :=
  (run_issue_ok (decodeRecord_encode wf) ok).trans h

/-- The machine runs the sequence and appends one OK response for each command. -/
theorem OkRun.runs {s t : State} {is : List Instr} {ws : List Block} (h : OkRun s is t ws) :
    Runs s is { t with inbox := [], rsps := s.rsps ++ ws.map (Response.mk .ok) } := by
  suffices ∀ rs, Runs { s with rsps := rs } is { t with inbox := [], rsps := rs ++ ws.map (Response.mk .ok) } from
    this s.rsps
  induction h with
  | nil s => intro rs; simp [Runs, issue]
  | @cons i is s u t w ws wf ok _ ih =>
    intro rs
    have h := ih (rs ++ [⟨.ok, w⟩])
    rw [List.append_assoc] at h
    exact .cons wf (ok.withRsps rs) h

theorem Runs.append {s u t : State} {is js : List Instr} (h : Runs s is u) (hjs : Runs u js t) :
    Runs s (is ++ js) t := (run_issue_append js h).trans hjs

/-- A sequence of one command, whatever it responds. -/
theorem Runs.single {i : Instr} {s t : State} (wf : i.wellFormed = true) (h : exec i s = .next t) :
    Runs s [i] (t.withInbox []) := by
  have hs : step (s.withInbox (issue [i])) = .next (t.withInbox []) := by
    rw [step_command (c := encode i) (rest := []) rfl, decodeRecord_encode wf]
    exact exec_withInbox h []
  exact run_succ hs 0

end Sys2Proof.Claims

/-! PROOFS. A transaction up to its last command: BEGIN, the components, the message (30_encoding R93). -/

namespace Sys2Proof.Machine

/-- Closing a component with nothing open and the chain value as it is changes nothing. -/
theorem State.closeComponent_self {s : State} (hx : s.cmacX = 0) (ho : s.adOpen = false) :
    s.closeComponent s.d = s := by
  cases s; cases hx; cases ho; rfl

theorem State.appendMessage_nil {s : State} : s.appendMessage [] false = s := by
  simp [State.appendMessage]

theorem State.appendMessage_appendMessage (s : State) (v w : ByteString) (part : Bool) :
    (s.appendMessage v false).appendMessage w part = s.appendMessage (v ++ w) part := by
  have h := memWrite_append (s.ibuf ++ v) w
  rw [List.length_append, List.append_assoc] at h
  simp [State.appendMessage, h]

/-- The state in which ENCRYPT or DECRYPT finds the core: BEGIN, the components `ads` and the message `m` taken in. -/
def State.collected (s : State) (ads : List ByteString) (m : ByteString) : State :=
  (s.openTransaction (s2vChain (macE Config.chip s) ads)).appendMessage m
    (decide (m.length < 16 * beatCount m.length))

@[simp] theorem State.collected_ibuf (s : State) (ads : List ByteString) (m : ByteString) :
    (s.collected ads m).ibuf = m := memWrite_append [] m

theorem State.collected_ilen (s : State) (ads : List ByteString) (m : ByteString) :
    (s.collected ads m).ilen = m.length := by simp

end Sys2Proof.Machine

namespace Sys2Proof.Claims

open Sys2Proof.Machine Sys2Proof.Safety

/-! ## One associated-data component (46_commands_transaction R171, 30_encoding R93) -/

/-- Full beats, then a nonempty final one. -/
theorem quietRun_adBeats {s : State} (bs : List Block) (w : Block) {nb : Fin 17} (hp : s.phase = .collect)
    (hnb : nb ≠ 0) :
    QuietRun s (bs.map (.adpush 16 false) ++ [.adpush nb true w])
      (s.closeComponent (s2vStep s.d (cmacFinish (macE Config.chip s) s.k1 s.k2
        (bs.foldl (cmacAbsorb (macE Config.chip s)) s.cmacX) w nb))) := by
  induction bs generalizing s with
  | nil => exact .single rfl ⟨hp, by simp [hnb], rfl, rfl⟩
  | cons b bs ih =>
    exact .cons rfl ⟨hp, rfl, rfl, rfl⟩ (ih (s := s.absorbBeat (cmacAbsorb (macE Config.chip s) s.cmacX b)) hp)

/-- The beats of a component fold its CMAC into the chain. -/
theorem quietRun_adSeq {s : State} (a : ByteString) (hp : s.phase = .collect) (hx : s.cmacX = 0)
    (ho : s.adOpen = false) (hk : (s.k1, s.k2) = subkeys (macE Config.chip s)) :
    QuietRun s (adSeq a) (s.closeComponent (s2vStep s.d (cmac (macE Config.chip s) a))) := by
  rw [cmac, ← hk]
  by_cases ha : a.length = 0
  · rw [adSeq, if_pos ha, List.length_eq_zero_iff.1 ha, ← cmacFinish_empty]
    exact .single rfl ⟨hp, by simp [ho], by rw [hx]; rfl, rfl⟩
  · have hlast : (Fin.ofNat 17 (a.length - 16 * (beatCount a.length - 1))) ≠ 0 := by
      rw [Ne, Fin.ext_iff]
      simp only [Fin.ofNat, beatCount, Fin.val_zero]
      omega
    have h := quietRun_adBeats ((List.range (beatCount a.length - 1)).map (blockAt a))
      (blockAt a (beatCount a.length - 1)) hp hlast
    rw [hx, cmacFinish_beats _ _ _ ha, List.map_map] at h
    rw [adSeq, if_neg ha]
    exact h

/-- The components of a transaction, in order. -/
theorem quietRun_adSeqs {s : State} (ads : List ByteString) (hp : s.phase = .collect) (hx : s.cmacX = 0)
    (ho : s.adOpen = false) (hk : (s.k1, s.k2) = subkeys (macE Config.chip s)) :
    QuietRun s (ads.flatMap adSeq)
      (s.closeComponent (ads.foldl (fun d a => s2vStep d (cmac (macE Config.chip s) a)) s.d)) := by
  induction ads generalizing s with
  | nil =>
    rw [List.foldl_nil, State.closeComponent_self hx ho]
    exact .nil s
  | cons a ads ih =>
    rw [List.flatMap_cons]
    exact (quietRun_adSeq a hp hx ho hk).append
      (ih (s := s.closeComponent (s2vStep s.d (cmac (macE Config.chip s) a))) hp rfl rfl hk)

/-! ## The message (46_commands_transaction R172, 30_encoding R93) -/

/-- The first `k` beats of a message. -/
theorem quietRun_msgBeats {s : State} {m : ByteString} (hp : s.phase = .collect) (hc : s.msgClosed = false)
    (room : s.ilen + m.length ≤ Config.chip.bufCap) {k : Nat} (hk : k ≤ beatCount m.length) :
    QuietRun s ((List.range k).map fun j =>
        .msgpush (Fin.ofNat 17 (min 16 (m.length - 16 * j))) (blockAt m j))
      (s.appendMessage (m.take (16 * k)) (decide (m.length < 16 * k))) := by
  induction k with
  | zero =>
    rw [Nat.mul_zero, List.take_zero, decide_eq_false (Nat.not_lt_zero _), State.appendMessage_nil]
    exact .nil s
  | succ k ih =>
    have inside : 16 * k < m.length := by rw [beatCount] at hk; omega
    have hn : (Fin.ofNat 17 (min 16 (m.length - 16 * k))).val = min 16 (m.length - 16 * k) :=
      Nat.mod_eq_of_lt (by omega)
    have before := ih (by omega)
    rw [decide_eq_false (show ¬m.length < 16 * k by omega)] at before
    have hpart : decide (min 16 (m.length - 16 * k) < 16) = decide (m.length < 16 * (k + 1)) :=
      decide_eq_decide.2 (by omega)
    rw [List.range_succ, List.map_append]
    refine before.append (.single ?_ ⟨hp, by simp [hc], ?_, ?_, rfl⟩)
    · simp only [Instr.wellFormed, hn, decide_eq_true_eq]
      omega
    · simp only [State.ilen_eq, State.appendMessage_ibuf, memWrite_append, List.length_append, List.length_take, hn]
      rw [State.ilen_eq] at room
      omega
    · rw [beatBytes_blockAt, State.appendMessage_appendMessage, take_append_slice m (by omega), hn, hpart]
      rfl

/-- The beats of a message store it; a last partial beat closes it. -/
theorem quietRun_msgSeq {s : State} {m : ByteString} (hp : s.phase = .collect) (hc : s.msgClosed = false)
    (room : s.ilen + m.length ≤ Config.chip.bufCap) :
    QuietRun s (msgSeq m) (s.appendMessage m (decide (m.length < 16 * beatCount m.length))) := by
  have h := quietRun_msgBeats hp hc room (Nat.le_refl _)
  rwa [List.take_of_length_le (by rw [beatCount]; omega)] at h

/-! ## The whole transaction up to its last command -/

/-- The two phases in which BEGIN is legal have a key installed (46_commands_transaction R176). -/
theorem keyed_of_idle {s : State} (hp : s.phase = .ready ∨ s.phase = .done) : s.phase ≠ .unkeyed := by
  rcases hp with h | h <;> simp [h]

/-- BEGIN starts the chain of the S2V loop (42_s2v R133). -/
theorem quietRun_begin {s : State} (hi : Inv Config.chip s) (hp : s.phase = .ready ∨ s.phase = .done) :
    QuietRun s [.begin] (s.openTransaction (cmac (macE Config.chip s) (zeros 16))) := by
  rw [cmac, ← hi.subkeys (keyed_of_idle hp)]
  exact .single rfl ⟨hp, rfl, rfl⟩

/-- BEGIN, the components and the message. -/
theorem quietRun_collect {s : State} (ads : List ByteString) {m : ByteString} (hi : Inv Config.chip s)
    (hp : s.phase = .ready ∨ s.phase = .done) (room : m.length ≤ Config.chip.bufCap) :
    QuietRun s (.begin :: (ads.flatMap adSeq ++ msgSeq m)) (s.collected ads m) := by
  have hads := quietRun_adSeqs (s := s.openTransaction (cmac (macE Config.chip s) (zeros 16))) ads rfl rfl rfl
    (hi.subkeys (keyed_of_idle hp))
  have hmsg := quietRun_msgSeq (s := s.openTransaction (s2vChain (macE Config.chip s) ads)) (m := m) rfl rfl
    (by simpa using room)
  exact (quietRun_begin hi hp).append (hads.append hmsg)

/-- The SIV of the collected components and a last string is that of the document (42_s2v R133, R134). -/
theorem sivOf_collected {s : State} (ads : List ByteString) (m p : ByteString) (hi : Inv Config.chip s)
    (keyed : s.phase ≠ .unkeyed) :
    sivOf Config.chip (s.collected ads m) p = s2v (macE Config.chip s) ads p := by
  rw [s2v, cmac, ← hi.subkeys keyed]
  rfl

end Sys2Proof.Claims

/-! PROOFS. The operations of 00_scope R11: a transaction's last command, and the result read back. -/

namespace Sys2Proof.Machine

/-- DECRYPT of fewer than 16 bytes (46_commands_transaction R174). -/
theorem exec_decrypt_short {s : State} (hp : s.phase = .collect) (ho : s.adOpen = false) (h : s.ilen < 16) :
    exec .decrypt s = fail .envelope s := by
  simp [exec, execDecrypt, execDecryptAt, requirePhase, hp, ho, h]

/-- DECRYPT where the recomputed SIV is not the received one (46_commands_transaction R174). -/
theorem exec_decrypt_mismatch {s : State} (hp : s.phase = .collect) (ho : s.adOpen = false) (h : 16 ≤ s.ilen)
    (hne : sivOf Config.chip s (candidate Config.chip s) ≠ envelopeSiv s.ibuf) :
    exec .decrypt s = fail .auth s := by
  have hct : ctEq (sivOf Config.chip s (candidate Config.chip s)) (envelopeSiv s.ibuf) = false :=
    Bool.eq_false_iff.2 fun e => hne ((ctEq_iff _ _).1 e)
  simp [exec, execDecrypt, execDecryptAt, requirePhase, hp, ho, Nat.not_lt.2 h, hct]

/-- The candidate of a collected envelope. -/
theorem candidate_collected (s : State) (ads : List ByteString) (v : ByteString) :
    candidate Config.chip (s.collected ads v) =
      sivCtr (ctrE Config.chip s) (packBytes 128 (v.take 16)) (v.drop 16) := by
  rw [candidate, State.collected_ibuf, envelopeSiv_eq, envelopeCt_eq]
  rfl

end Sys2Proof.Machine

namespace Sys2Proof.Claims

open Sys2Proof.Machine Sys2Proof.Safety

/-- The envelope the document's encryption gives. -/
theorem encryptOutput_collected {s : State} (ads : List ByteString) (p : ByteString) (hi : Inv Config.chip s)
    (keyed : s.phase ≠ .unkeyed) :
    encryptOutput Config.chip (s.collected ads p) =
      topBytes 16 (s2v (macE Config.chip s) ads p) ++
        sivCtr (ctrE Config.chip s) (s2v (macE Config.chip s) ads p) p := by
  simp only [encryptOutput, State.collected_ilen, State.collected_ibuf, memRead_all, sivOf_collected ads p p hi keyed]
  rfl

/-- The encryption transaction (46_commands_transaction R177). -/
theorem quietRun_encryptSeq {s : State} (ads : List ByteString) {p : ByteString} (hi : Inv Config.chip s)
    (hp : s.phase = .ready ∨ s.phase = .done) (room : p.length + 16 ≤ Config.chip.bufCap) :
    QuietRun s (encryptSeq ads p) ((s.collected ads p).finish
      (topBytes 16 (s2v (macE Config.chip s) ads p) ++
        sivCtr (ctrE Config.chip s) (s2v (macE Config.chip s) ads p) p)) := by
  rw [← encryptOutput_collected ads p hi (keyed_of_idle hp)]
  exact (quietRun_collect ads hi hp (by omega)).append
    (.single rfl ⟨rfl, rfl, by rwa [State.collected_ilen], rfl, rfl⟩)

/-- The decryption transaction of an envelope that verifies (46_commands_transaction R178). -/
theorem quietRun_decryptSeq {s : State} (ads : List ByteString) {v pt : ByteString} (hi : Inv Config.chip s)
    (hp : s.phase = .ready ∨ s.phase = .done) (room : v.length ≤ Config.chip.bufCap) (long : 16 ≤ v.length)
    (hpt : pt = sivCtr (ctrE Config.chip s) (packBytes 128 (v.take 16)) (v.drop 16))
    (verified : s2v (macE Config.chip s) ads pt = packBytes 128 (v.take 16)) :
    QuietRun s (decryptSeq ads v) ((s.collected ads v).finish pt) := by
  have hc : candidate Config.chip (s.collected ads v) = pt := by rw [candidate_collected, hpt]
  refine (quietRun_collect ads hi hp room).append
    (.single rfl ⟨rfl, rfl, by rwa [State.collected_ilen], ?_, by rw [hc], rfl⟩)
  rw [ctEq_iff, hc, sivOf_collected ads v pt hi (keyed_of_idle hp), State.collected_ibuf, envelopeSiv_eq, verified]

/-- DECRYPT of a collected envelope that is too short or does not verify fails, whatever was answered before. -/
theorem exec_decrypt_collected_failed {s : State} (ads : List ByteString) {v pt : ByteString}
    (hi : Inv Config.chip s) (keyed : s.phase ≠ .unkeyed)
    (hpt : pt = sivCtr (ctrE Config.chip s) (packBytes 128 (v.take 16)) (v.drop 16))
    (failed : v.length < 16 ∨ s2v (macE Config.chip s) ads pt ≠ packBytes 128 (v.take 16)) (rs : List Response) :
    exec .decrypt { s.collected ads v with inbox := [], rsps := rs } =
      fail (if v.length < 16 then .envelope else .auth) { s.collected ads v with inbox := [], rsps := rs } := by
  by_cases short : v.length < 16
  · rw [if_pos short]
    exact exec_decrypt_short rfl rfl (by simpa using short)
  · have mismatch : sivOf Config.chip (s.collected ads v) (candidate Config.chip (s.collected ads v)) ≠
        envelopeSiv (s.collected ads v).ibuf := by
      rw [candidate_collected, ← hpt, sivOf_collected ads v pt hi keyed, State.collected_ibuf, envelopeSiv_eq]
      exact failed.resolve_left short
    rw [if_neg short]
    exact exec_decrypt_mismatch rfl rfl (by simpa using short) mismatch

/-- The decryption transaction of an envelope that is too short or does not verify ends in the abort
(46_commands_transaction R178). -/
theorem runs_decryptSeq_failed {s : State} (ads : List ByteString) {v pt : ByteString} (hi : Inv Config.chip s)
    (hp : s.phase = .ready ∨ s.phase = .done) (room : v.length ≤ Config.chip.bufCap)
    (hpt : pt = sivCtr (ctrE Config.chip s) (packBytes 128 (v.take 16)) (v.drop 16))
    (failed : v.length < 16 ∨ s2v (macE Config.chip s) ads pt ≠ packBytes 128 (v.take 16)) {code : RespCode}
    (hcode : code = if v.length < 16 then .envelope else .auth) :
    Runs s (decryptSeq ads v)
      { s.abort code with
        inbox := [], rsps := s.rsps ++ oks ((decryptSeq ads v).length - 1) ++ [⟨code, 0⟩] } := by
  have hlen : (decryptSeq ads v).length - 1 = (Instr.begin :: (ads.flatMap adSeq ++ msgSeq v)).length := by
    simp only [decryptSeq, List.length_cons, List.length_append, List.length_nil]
    omega
  have collected := (quietRun_collect ads hi hp room).runs
  rw [List.map_replicate] at collected
  rw [hcode, hlen]
  exact collected.append (.single rfl (exec_decrypt_collected_failed ads hi (keyed_of_idle hp) hpt failed _))

/-! ## Reading the result (46_commands_transaction R175, 30_encoding R93) -/

theorem okRun_outrds {s : State} (js : List Nat) (hp : s.phase = .done) (cap : s.olen ≤ Config.chip.bufCap)
    (inside : ∀ j ∈ js, 16 * j < s.olen) :
    OkRun s (js.map fun j => .outrd (Fin.ofNat 16777216 j)) s (js.map (resultBlock s.obuf)) := by
  induction js with
  | nil => exact .nil s
  | cons j js ih =>
    obtain ⟨hj, hjs⟩ := List.forall_mem_cons.1 inside
    have index := outSeq_index cap hj
    exact .cons rfl ⟨hp, by rwa [index], rfl, by rw [index]⟩ (ih hjs)

/-- The OUT sequence of the result's length reads its blocks in order and changes no state. -/
theorem okRun_outSeq {s : State} (hp : s.phase = .done) (cap : s.olen ≤ Config.chip.bufCap) :
    OkRun s (outSeq s.olen) s ((List.range (beatCount s.olen)).map (resultBlock s.obuf)) := by
  refine okRun_outrds _ hp cap fun j hj => ?_
  have hj := List.mem_range.1 hj
  rw [beatCount] at hj
  omega

/-- A sequence that leaves a result, then the OUT sequence that reads it back. -/
theorem QuietRun.runs_outSeq {s u : State} {is : List Instr} (h : QuietRun s is u) (hp : u.phase = .done)
    (cap : u.olen ≤ Config.chip.bufCap) :
    ∃ out, Runs s (is ++ outSeq u.olen) { u with inbox := [], rsps := s.rsps ++ oks is.length ++ out } ∧
      ReadsBack out u.obuf := by
  have hrun := (OkRun.append h (okRun_outSeq hp cap)).runs
  rw [List.map_append, List.map_replicate, ← List.append_assoc] at hrun
  exact ⟨_, hrun, readsBack_resultBlocks u.obuf⟩

end Sys2Proof.Claims

/-! PROOFS. The statements about 00_scope. -/

namespace Sys2Proof.Claims

open Sys2Proof.Machine Sys2Proof.Safety

/-- Settles O3: the code is the capacity's multiple of 16, counted from 32. -/
theorem capacityIsAnyMultipleOfSixteenInRange : Obligations.CapacityIsAnyMultipleOfSixteenInRange := by
  refine ⟨fun cfg => ?_, fun n hmod hlow hhigh => ?_⟩
  · have hcode := cfg.capCode.isLt
    simp only [Config.bufCap]
    omega
  · refine ⟨⟨fun _ b => b, ⟨n / 16 - 2, by omega⟩⟩, ?_⟩
    simp only [Config.bufCap]
    omega

/-- Settles O13: with an empty inbox there is no event to take. -/
theorem stepWithoutEventChangesNothing : Obligations.StepWithoutEventChangesNothing := by
  intro s h
  rw [step, takeEvent_nil h]

/-- Settles O57: the encryption transaction is a run of OK responses that leaves the envelope, and the OUT sequence
reads it back. -/
theorem encryptOperationReturnsTheEnvelope : Obligations.EncryptOperationReturnsTheEnvelope := by
  rintro s ads p siv hi hp room rfl
  have hrun := quietRun_encryptSeq ads hi hp room
  have hlen : (topBytes 16 (s2v (macE Config.chip s) ads p) ++
      sivCtr (ctrE Config.chip s) (s2v (macE Config.chip s) ads p) p).length = 16 + p.length := by simp
  obtain ⟨out, hout, reads⟩ := hrun.runs_outSeq rfl (by rw [State.olen_eq, State.finish_obuf, hlen]; omega)
  rw [State.olen_eq, State.finish_obuf, hlen] at hout
  exact ⟨_, out, hout, rfl, reads, rfl, rfl, rfl, rfl, rfl, rfl, rfl⟩

/-- Settles O58: a verified transaction leaves the plaintext for the OUT sequence; any other ends in the abort. -/
theorem decryptOperationReturnsThePlaintext : Obligations.DecryptOperationReturnsThePlaintext := by
  rintro s ads v siv pt hi hp room rfl hpt
  refine ⟨fun long verified => ?_, fun failed => ?_⟩
  · have hrun := quietRun_decryptSeq ads hi hp room long hpt verified
    have hlen : pt.length = v.length - 16 := by simp [hpt]
    obtain ⟨out, hout, reads⟩ := hrun.runs_outSeq rfl (by rw [State.olen_eq, State.finish_obuf, hlen]; omega)
    rw [State.olen_eq, State.finish_obuf, hlen] at hout
    exact ⟨_, out, hout, rfl, reads, rfl, rfl, rfl, rfl, rfl, rfl, rfl⟩
  · have keyed : s.ksel ≠ .none := fun h => keyed_of_idle hp (hi.unkeyed_iff.2 h)
    have hrun := runs_decryptSeq_failed ads hi hp room hpt failed rfl
    rw [decryptOperation_failed]
    exact ⟨_, _, hrun, rfl, rfl, if_neg keyed, rfl, rfl, rfl, rfl, rfl, rfl⟩

end Sys2Proof.Claims

/-! PROOFS. What one step can do (00_scope R9, 45_commands_key R165), and what an OK response leaves in `err`. -/

namespace Sys2Proof.Machine

/-- A command record is answered OK in the OK case of the command it decodes to, or it fails with the abort. -/
theorem step_command_cases {s : State} {c : CommandRecord} {rest : List HostEvent}
    (h : s.inbox = .command c :: rest) :
    (∃ i u w, decodeRecord c = .ok i ∧ OkCase i (s.withInbox rest) u w ∧ step s = .next (u.emit .ok w)) ∨
      ∃ code, code ≠ .ok ∧ step s = .next (((s.withInbox rest).abort code).emit code 0) := by
  rw [step_command h]
  cases hd : decodeRecord c with
  | ok i =>
    rcases exec_cases i (s.withInbox rest) with ⟨u, w, e, hok⟩ | failed
    · exact .inl ⟨i, u, w, rfl, hok, e⟩
    · exact .inr failed
  | error _ => exact .inr ⟨.illegal, by decide, rfl⟩

/-- The three commands that clear `err` (10_state R32). -/
theorem OkCase.err_cleared {i : Instr} {s u : State} {w : Block} (h : OkCase i s u w)
    (hi : i = .zeroize ∨ i = .begin ∨ ∃ klen, i = .keyinit klen) : u.err = .ok := by
  rcases hi with rfl | rfl | ⟨klen, rfl⟩
  · obtain ⟨rfl, -⟩ := h; rfl
  · obtain ⟨-, rfl, -⟩ := h; rfl
  · obtain ⟨-, -, -, rfl, -⟩ := h; rfl

/-- Every other command leaves `err` as it was (10_state R32). -/
theorem OkCase.err_kept {i : Instr} {s u : State} {w : Block} (h : OkCase i s u w)
    (hz : i ≠ .zeroize) (hb : i ≠ .begin) (hk : ∀ klen, i ≠ .keyinit klen) : u.err = s.err := by
  cases i with
  | zeroize => exact absurd rfl hz
  | begin => exact absurd rfl hb
  | keyinit klen => exact absurd rfl (hk klen)
  | nop => obtain ⟨rfl, -⟩ := h; rfl
  | statrd => obtain ⟨rfl, -⟩ := h; rfl
  | keywr idx data => obtain ⟨-, rfl, -⟩ := h; rfl
  | adpush nbytes last data => obtain ⟨-, -, rfl, -⟩ := h; cases last <;> rfl
  | msgpush nbytes data => obtain ⟨-, -, -, rfl, -⟩ := h; rfl
  | encrypt => obtain ⟨-, -, -, rfl, -⟩ := h; rfl
  | decrypt => obtain ⟨-, -, -, -, rfl, -⟩ := h; rfl
  | outrd blk => obtain ⟨-, -, rfl, -⟩ := h; rfl

end Sys2Proof.Machine

/-! PROOFS. Key registers and lengths: the halves KEYINIT installs, the sizes of the results. -/

namespace Sys2Proof.Machine

/-- Left-aligned bytes leave nothing below them (10_state R24). -/
theorem packBytes_shiftLeft (w : Nat) (s : ByteString) (h : 8 * s.length ≤ w) :
    packBytes w s <<< (8 * s.length) = 0 := by
  apply BitVec.eq_of_toNat_eq
  rw [BitVec.toNat_shiftLeft, packBytes_toNat w s h, Nat.shiftLeft_eq, Nat.mul_assoc, ← Nat.pow_add,
    Nat.sub_add_cancel h, Nat.mul_mod_left]
  rfl

theorem KSel.ksize_le (k : KSel) : k.ksize ≤ 32 := by cases k <;> decide

/-- A half of `ksize` bytes leaves the low bits of its key register zero (10_state R24). -/
theorem packBytes_shiftLeft_ksize {sel : KSel} {half : ByteString} (h : half.length = sel.ksize) :
    packBytes 256 half <<< (8 * sel.ksize) = 0 := by
  have fits := sel.ksize_le
  rw [← h]
  exact packBytes_shiftLeft 256 half (by omega)

/-- After KEYINIT the cipher runs under the MAC half itself (10_state R24). -/
theorem macE_installKey (cfg : Config) (s : State) {sel : KSel} {mac : ByteString} (ctr : ByteString)
    (subs : Block × Block) (h : mac.length = sel.ksize) : macE cfg (s.installKey sel mac ctr subs) = cfg.E mac := by
  have fits := sel.ksize_le
  rw [macE, State.installKey_ksel, State.installKey_macKey, ← h, topBytes_packBytes_self 256 mac (by omega)]

@[simp] theorem stagedBytes_length (s : State) : (stagedBytes s).length = 64 := by simp [stagedBytes]

theorem supportedKlen_iff (klen : Nat) : supportedKlen klen = true ↔ klen = 32 ∨ klen = 48 ∨ klen = 64 := by
  simp [supportedKlen, or_assoc]

/-- A supported length selects a key size, and both halves have it (45_commands_key R163). -/
theorem halves_of_supported (s : State) {klen : Nat} (h : supportedKlen klen = true) :
    KSel.ofHalf (klen / 2) ≠ .none ∧ (macHalf s klen).length = (KSel.ofHalf (klen / 2)).ksize ∧
      (ctrHalf s klen).length = (KSel.ofHalf (klen / 2)).ksize := by
  simp only [macHalf, ctrHalf, stagedKey, slice_length, stagedBytes_length]
  rcases (supportedKlen_iff klen).1 h with rfl | rfl | rfl <;> decide

theorem encryptOutput_length (cfg : Config) (s : State) : (encryptOutput cfg s).length = s.ilen + 16 := by
  simp [encryptOutput, mkEnvelope, Nat.add_comm]

theorem candidate_length (cfg : Config) (s : State) : (candidate cfg s).length = s.ilen - 16 := by
  simp [candidate, envelopeCt_eq]

end Sys2Proof.Machine

/-! PROOFS. The invariant of 10_state R36 under each update of the state, each command and each step. -/

namespace Sys2Proof.Safety

open Sys2Proof.Machine

variable {cfg : Config} {s : State}

theorem inv_reset (cfg : Config) : Inv cfg State.reset where
  unkeyed_iff := ⟨fun _ => rfl, fun _ => rfl⟩
  no_key _ := ⟨rfl, rfl, rfl, rfl⟩
  staging_clear _ := ⟨rfl, rfl⟩
  chain_clear _ := ⟨rfl, rfl, rfl, rfl, rfl⟩
  output_clear _ := rfl
  cmac_clear _ := rfl
  append_aligned _ := rfl
  capacity := by simp
  subkeys_cached keyed := absurd rfl keyed
  keys_left_aligned := by simp

/-- The invariant does not speak of the host's events and the responses. -/
theorem inv_dropInstance (cfg : Config) (s : State) : Inv cfg s.dropInstance := { inv_reset cfg with }

theorem Inv.writeKeyWord (h : Inv cfg s) (hp : s.phase = .unkeyed) (idx : Fin 4) (data : Block) :
    Inv cfg (s.writeKeyWord idx data) :=
  { h with staging_clear := fun keyed => absurd hp keyed }

/-- Halves of `ksize` bytes and the subkeys of the MAC half, installed in UNKEYED. -/
theorem Inv.installKey (h : Inv cfg s) (hp : s.phase = .unkeyed) {sel : KSel} {mac ctr : ByteString}
    (keyed : sel ≠ .none) (hmac : mac.length = sel.ksize) (hctr : ctr.length = sel.ksize) :
    Inv cfg (s.installKey sel mac ctr (Machine.subkeys (cfg.E mac))) where
  unkeyed_iff := by simp [keyed]
  no_key unkeyed := absurd unkeyed keyed
  staging_clear _ := ⟨rfl, rfl⟩
  chain_clear _ := h.chain_clear (by simp [hp])
  output_clear _ := h.output_clear (by simp [hp])
  cmac_clear := h.cmac_clear
  append_aligned := h.append_aligned
  capacity := h.capacity
  subkeys_cached _ := by rw [macE_installKey cfg s ctr _ hmac]; exact ⟨rfl, rfl⟩
  keys_left_aligned := ⟨packBytes_shiftLeft_ksize hmac, packBytes_shiftLeft_ksize hctr⟩

/-- A phase with a key, entered from another one, keeps (a). -/
theorem Inv.unkeyed_iff_of_keyed (h : Inv cfg s) (hp : s.phase ≠ .unkeyed) {p : Phase} (hq : p ≠ .unkeyed) :
    p = .unkeyed ↔ s.ksel = .none :=
  ⟨fun e => absurd e hq, fun e => absurd (h.unkeyed_iff.2 e) hp⟩

theorem Inv.openTransaction (h : Inv cfg s) (hp : s.phase ≠ .unkeyed) (d0 : Block) :
    Inv cfg (s.openTransaction d0) where
  unkeyed_iff := h.unkeyed_iff_of_keyed hp (by simp)
  no_key := h.no_key
  staging_clear _ := h.staging_clear hp
  chain_clear other := absurd rfl other
  output_clear _ := rfl
  cmac_clear _ := rfl
  append_aligned _ := rfl
  capacity := by simp
  subkeys_cached := h.subkeys_cached
  keys_left_aligned := h.keys_left_aligned

theorem Inv.absorbBeat (h : Inv cfg s) (hp : s.phase = .collect) (x : Block) : Inv cfg (s.absorbBeat x) :=
  { h with
    chain_clear := fun other => absurd hp other
    cmac_clear := fun closed => nomatch closed }

theorem Inv.closeComponent (h : Inv cfg s) (hp : s.phase = .collect) (d' : Block) : Inv cfg (s.closeComponent d') :=
  { h with
    chain_clear := fun other => absurd hp other
    cmac_clear := fun _ => rfl }

/-- A beat of at most 16 bytes that fits, marked partial where it is shorter: while the message stays open its length
stays a multiple of 16. -/
theorem Inv.appendMessage (h : Inv cfg s) (hp : s.phase = .collect) (hc : s.msgClosed = false) {v : ByteString}
    (beat : v.length ≤ 16) (room : s.ilen + v.length ≤ cfg.bufCap) :
    Inv cfg (s.appendMessage v (decide (v.length < 16))) := by
  have hlen : (s.appendMessage v (decide (v.length < 16))).ilen = s.ilen + v.length := by simp
  have aligned := h.append_aligned hc
  exact { h with
    chain_clear := fun other => absurd hp other
    append_aligned := fun opened => by
      have full : 16 ≤ v.length := by simpa [hc] using opened
      omega
    capacity := ⟨by rw [hlen]; exact room, h.capacity.2⟩ }

theorem Inv.finish (h : Inv cfg s) (hp : s.phase = .collect) (ho : s.adOpen = false) {out : ByteString}
    (room : out.length ≤ cfg.bufCap) : Inv cfg (s.finish out) := by
  have keyed : s.phase ≠ .unkeyed := by simp [hp]
  exact {
    unkeyed_iff := h.unkeyed_iff_of_keyed keyed (by simp)
    no_key := h.no_key
    staging_clear := fun _ => h.staging_clear keyed
    chain_clear := fun _ => ⟨rfl, rfl, ho, rfl, rfl⟩
    output_clear := fun other => absurd rfl other
    cmac_clear := fun _ => rfl
    append_aligned := fun _ => rfl
    capacity := ⟨by simp, room⟩
    subkeys_cached := h.subkeys_cached
    keys_left_aligned := h.keys_left_aligned }

/-- The OK case of every command keeps the invariant. -/
theorem Inv.of_okCase {i : Instr} {u : State} {w : Block} (h : Inv Config.chip s) (hok : OkCase i s u w) :
    Inv Config.chip u := by
  cases i with
  | nop => obtain ⟨rfl, -⟩ := hok; exact h
  | zeroize => obtain ⟨rfl, -⟩ := hok; exact inv_dropInstance _ s
  | statrd => obtain ⟨rfl, -⟩ := hok; exact h
  | keywr idx data => obtain ⟨hp, rfl, -⟩ := hok; exact h.writeKeyWord hp idx data
  | keyinit klen =>
    obtain ⟨hp, supported, -, rfl, -⟩ := hok
    obtain ⟨keyed, hmac, hctr⟩ := halves_of_supported s supported
    exact h.installKey hp keyed hmac hctr
  | begin => obtain ⟨hp, rfl, -⟩ := hok; exact h.openTransaction (Claims.keyed_of_idle hp) _
  | adpush nbytes last data =>
    obtain ⟨hp, -, rfl, -⟩ := hok
    cases last with
    | false => exact h.absorbBeat hp _
    | true => exact h.closeComponent hp _
  | msgpush nbytes data =>
    obtain ⟨hp, hc, room, rfl, -⟩ := hok
    have hlen : (beatBytes nbytes data).length = nbytes.val := topBytes_length _ _
    rw [← hlen] at room ⊢
    exact h.appendMessage hp hc (by omega) room
  | encrypt =>
    obtain ⟨hp, ho, room, rfl, -⟩ := hok
    exact h.finish hp ho (by rwa [encryptOutput_length])
  | decrypt =>
    obtain ⟨hp, ho, -, -, rfl, -⟩ := hok
    have cap := h.capacity.1
    exact h.finish hp ho (by rw [candidate_length]; omega)
  | outrd blk => obtain ⟨-, -, rfl, -⟩ := hok; exact h

/-- A step with no event, a reset event, an OK response and a failure each keep the invariant. -/
theorem Inv.step {t : State} (h : Inv Config.chip s) (hs : step s = .next t) : Inv Config.chip t := by
  cases hin : s.inbox with
  | nil =>
    rw [Claims.stepWithoutEventChangesNothing s hin] at hs
    cases hs
    exact h
  | cons e rest =>
    have taken := h.withInbox rest
    cases e with
    | reset =>
      rw [step_reset hin] at hs
      cases hs
      exact inv_dropInstance _ _
    | command c =>
      rcases step_command_cases hin with ⟨i, u, w, -, hok, e⟩ | ⟨code, -, e⟩ <;> rw [e] at hs <;> cases hs
      · exact (taken.of_okCase hok).emit _ _
      · exact (taken.abort code).emit _ _

end Sys2Proof.Safety

/-! PROOFS. The statements about 10_state. -/

namespace Sys2Proof.Claims

open Sys2Proof.Machine Sys2Proof.Safety

/-- Settles O44: every element is zero or empty, and no key is installed. -/
theorem resetMeetsTheInvariant : Obligations.ResetMeetsTheInvariant := inv_reset Config.chip

/-- Settles O45: an OK response leaves one of the updates that keep the invariant, a failure the abort. -/
theorem stepKeepsTheInvariant : Obligations.StepKeepsTheInvariant := fun _ _ h hs => h.step hs

/-- Settles O20: a record is answered in the OK case of its command, or with the abort, which writes the code. -/
theorem errKeepsTheLastFailure : Obligations.ErrKeepsTheLastFailure := by
  refine ⟨rfl, fun s rest t hin hs => ?_, fun s c rest hin => ?_⟩
  · rw [step_reset hin] at hs
    cases hs
    rfl
  · rcases step_command_cases hin with ⟨i, u, w, hd, hok, e⟩ | ⟨code, failed, e⟩
    · have answered : (u.emit .ok w).rsps = s.rsps ++ [⟨.ok, w⟩] := by
        rw [State.emit_rsps, hok.frame.1, State.withInbox_rsps]
      refine ⟨_, ⟨.ok, w⟩, e, answered, fun bad => absurd rfl bad, fun j hj _ => ?_⟩
      obtain rfl : i = j := Except.ok.inj (hd.symm.trans hj)
      exact ⟨hok.err_cleared, hok.err_kept⟩
    · exact ⟨_, ⟨code, 0⟩, e, rfl, fun _ => rfl, fun _ _ ok => absurd ok failed⟩

end Sys2Proof.Claims

/-! PROOFS. What the `data` word does to a command: the decoder only copies it into the operand (30_encoding R70), and
a beat is used up to its valid bytes (20_memory R53). -/

namespace Sys2Proof

variable {ctrl : BitVec 32} {data data' : Block} {i : Instr}

theorem keywr_of_decodeK_ok (h : decodeK ctrl data = .ok i) : ∃ idx, i = .keywr idx data := by
  unfold decodeK at h
  split at h
  · exact ⟨_, (Except.ok.inj h).symm⟩
  · cases h

theorem adpush_of_decodeB_ok (h : decodeB ctrl data = .ok i) : ∃ nbytes last, i = .adpush nbytes last data := by
  simp only [decodeB] at h
  split_ifs at h
  exact ⟨_, _, (Except.ok.inj h).symm⟩

theorem msgpush_of_decodeM_ok (h : decodeM ctrl data = .ok i) : ∃ nbytes, i = .msgpush nbytes data := by
  simp only [decodeM] at h
  split_ifs at h
  exact ⟨_, (Except.ok.inj h).symm⟩

/-- Outside the formats K, B and M the decoder does not look at `data`. -/
theorem decodeOp_data_irrelevant {op : Nat} (hk : op ≠ 0x10) (hb : op ≠ 0x21) (hm : op ≠ 0x22) :
    decodeOp op ctrl data = decodeOp op ctrl data' := by
  unfold decodeOp
  split
  case h_4 => exact absurd rfl hk
  case h_7 => exact absurd rfl hb
  case h_8 => exact absurd rfl hm
  all_goals rfl

/-- A command without data operand is decoded from its control word alone (30_encoding R70). -/
theorem decode_data_irrelevant (h : decode ctrl data = .ok i) (hk : ∀ idx w, i ≠ .keywr idx w)
    (hb : ∀ nbytes last w, i ≠ .adpush nbytes last w) (hm : ∀ nbytes w, i ≠ .msgpush nbytes w) :
    decode ctrl data' = .ok i := by
  unfold decode at h ⊢
  generalize (ctrl.extractLsb' 24 8).toNat = op at h ⊢
  rw [← h]
  refine decodeOp_data_irrelevant ?_ ?_ ?_ <;> rintro rfl
  · obtain ⟨idx, e⟩ := keywr_of_decodeK_ok h
    exact hk idx data e
  · obtain ⟨nbytes, last, e⟩ := adpush_of_decodeB_ok h
    exact hb nbytes last data e
  · obtain ⟨nbytes, e⟩ := msgpush_of_decodeM_ok h
    exact hm nbytes data e

end Sys2Proof

namespace Sys2Proof.Machine

/-- The last beat enters the CMAC by its valid bytes: all of it when it is full, their padding otherwise. -/
theorem cmacFinish_congr (ek : Block → Block) (k1 k2 x : Block) {nbytes : Fin 17} {w w' : Block}
    (h : topBytes nbytes.val w = topBytes nbytes.val w') :
    cmacFinish ek k1 k2 x w nbytes = cmacFinish ek k1 k2 x w' nbytes := by
  by_cases full : nbytes.val = 16
  · rw [full] at h
    rw [topBytes_injective w w' h]
  · have fits : (topBytes nbytes.val w').length ≤ 15 := by rw [topBytes_length]; omega
    rw [cmacFinish_partial ek k1 k2 x w h fits, cmacFinish_partial ek k1 k2 x w' rfl fits]

end Sys2Proof.Machine

/-! PROOFS. The statements about 20_memory. -/

namespace Sys2Proof.Claims

open Sys2Proof.Machine Sys2Proof.Safety

/-- Settles O10: a final ADPUSH uses its beat only through `cmac_finish`, a MSGPUSH only through its valid bytes, and
the decoder looks at `data` only in the three formats that have an operand. -/
theorem ignoredDataHasNoEffect : Obligations.IgnoredDataHasNoEffect := by
  refine ⟨fun nbytes w w' s h => ⟨?_, ?_⟩, fun _ _ _ _ hd hk hb hm => decode_data_irrelevant hd hk hb hm⟩
  · simp only [exec, execAdpush, execAdpushAt, if_true, cmacFinish_congr _ _ _ _ h]
  · simp only [exec, execMsgpush, execMsgpushAt, beatBytes, h]

/-- Settles O46: an accepted MSGPUSH finds the message open, and the length of an open message is a multiple of 16. -/
theorem appendAddressIsAligned : Obligations.AppendAddressIsAligned := by
  intro nbytes w s t hi h answered
  rcases exec_next_cases h with ⟨u, rdata, -, -, opened, -⟩ | ⟨code, failed, rfl⟩
  · exact hi.append_aligned opened
  · have same : code = .ok := by simpa using answered
    exact absurd same failed

end Sys2Proof.Claims

/-! PROOFS. The control word as an opcode and an argument (30_encoding R71), the legal control words, and the two
directions between them and the commands (30_encoding R76 to R78, R91). -/

namespace Sys2Proof

open Sys2Proof.Claims

variable {ctrl : BitVec 32} {data : Block} {i : Instr}

/-! ## Opcode and argument -/

/-- A control word is its opcode and its argument. -/
theorem opcode_append_argument (ctrl : BitVec 32) : ctrl.extractLsb' 24 8 ++ ctrl.extractLsb' 0 24 = ctrl := by
  apply BitVec.eq_of_toNat_eq
  have hlt := ctrl.isLt
  rw [append_toNat_add, field_toNat, field_toNat]
  omega

theorem encodeCtrl_eq (hop : opcodeByte i = ctrl.extractLsb' 24 8) (harg : argField i = ctrl.extractLsb' 0 24) :
    encodeCtrl i = ctrl := by
  rw [encodeCtrl, hop, harg, opcode_append_argument]

/-- `match` and `mask` of a row are about the opcode and the argument apart. -/
theorem and_opcode_mask_eq_iff (op : BitVec 8) (mask : BitVec 24) :
    ctrl &&& (0xFF#8 ++ mask) = op ++ 0#24 ↔ ctrl.extractLsb' 24 8 = op ∧ ctrl.extractLsb' 0 24 &&& mask = 0 := by
  have split : ctrl &&& (0xFF#8 ++ mask) = ctrl.extractLsb' 24 8 ++ (ctrl.extractLsb' 0 24 &&& mask) := by
    conv => lhs; lhs; rw [← opcode_append_argument ctrl]
    rw [BitVec.and_append, show 0xFF#8 = BitVec.allOnes 8 from rfl, BitVec.and_allOnes]
  rw [split]
  constructor
  · intro h
    have hop := congrArg (BitVec.extractLsb' 24 8) h
    have harg := congrArg (BitVec.extractLsb' 0 24) h
    rw [BitVec.extractLsb'_append_eq_left, BitVec.extractLsb'_append_eq_left] at hop
    rw [BitVec.extractLsb'_append_eq_right, BitVec.extractLsb'_append_eq_right] at harg
    exact ⟨hop, harg⟩
  · rintro ⟨rfl, h⟩
    rw [h]
    rfl

/-- A field whose bits are all in the mask is zero when the masked argument is. -/
theorem field_eq_zero_of_and_mask {mask : BitVec 24} {lo len : Nat} (hlen : lo + len ≤ 24)
    (hmask : ∀ n, n < len → mask.getLsbD (lo + n) = true) (h : ctrl.extractLsb' 0 24 &&& mask = 0) :
    ctrl.extractLsb' lo len = 0 := by
  apply BitVec.eq_of_getLsbD_eq
  intro n hn
  have inside : lo + n < 24 := by omega
  have hbit : (ctrl.extractLsb' 0 24 &&& mask).getLsbD (lo + n) = (0#24).getLsbD (lo + n) := by rw [h]; rfl
  rw [BitVec.getLsbD_and, hmask n hn, Bool.and_true, BitVec.getLsbD_extractLsb', Nat.zero_add] at hbit
  simpa [hn, inside] using hbit

/-- With the bits above `lo` zero the argument is the field below. -/
theorem low_field_eq_argument {lo len : Nat} (hlen : lo + len = 24) (h : ctrl.extractLsb' lo len = 0) :
    BitVec.ofNat 24 (ctrl.extractLsb' 0 lo).toNat = ctrl.extractLsb' 0 24 := by
  have hhigh := (field_eq_zero ctrl lo len).1 h
  have hpow : 2 ^ 24 = 2 ^ lo * 2 ^ len := by rw [← Nat.pow_add, hlen]
  have hmod : ctrl.toNat % 2 ^ 24 = ctrl.toNat % 2 ^ lo := by
    rw [hpow, Nat.mod_mul, hhigh, Nat.mul_zero, Nat.add_zero]
  apply BitVec.eq_of_toNat_eq
  rw [BitVec.toNat_ofNat, field_toNat, field_toNat, Nat.pow_zero, Nat.div_one, ← hmod, Nat.mod_mod]

/-! ## Legal control words (30_encoding R73, R76, R77) -/

/-- The opcode is defined, the reserved bits of its format are zero, and its row's field constraint holds: none of
the five cases of 30_encoding R77 (`illegalCase_iff`). -/
structure LegalWord (ctrl : BitVec 32) : Prop where
  opcode : ctrl.extractLsb' 24 8 ∈ definedOpcodes
  reserved : ctrl.extractLsb' 0 24 &&& reservedMask (ctrl.extractLsb' 24 8) = 0
  adpush : ctrl.extractLsb' 24 8 = 0x21#8 → nbytesField ctrl ≤ 16 ∧ (ctrl.getLsbD 8 = true ∨ nbytesField ctrl = 16)
  msgpush : ctrl.extractLsb' 24 8 = 0x22#8 → 1 ≤ nbytesField ctrl ∧ nbytesField ctrl ≤ 16

theorem illegalCase_iff : IllegalCase ctrl ↔ ¬LegalWord ctrl := by
  constructor
  · rintro (h | ⟨-, h⟩ | ⟨hop, h⟩ | ⟨hop, hmore, h⟩ | ⟨hop, h⟩) legal
    · exact h legal.opcode
    · exact h legal.reserved
    · exact absurd (legal.adpush hop).1 (by omega)
    · rcases (legal.adpush hop).2 with hlast | hfull
      · exact Bool.noConfusion (hlast.symm.trans hmore)
      · exact h hfull
    · have := legal.msgpush hop
      omega
  · intro h
    by_contra hcases
    simp only [IllegalCase, not_or, not_and, not_lt, Classical.not_not, ne_eq] at hcases
    obtain ⟨hop, hres, hlong, hpart, hmsg⟩ := hcases
    refine h ⟨hop, hres hop, fun e => ⟨hlong e, ?_⟩, fun e => ?_⟩
    · cases hlast : ctrl.getLsbD 8
      · exact .inr (hpart e hlast)
      · exact .inl rfl
    · have := hmsg e
      omega

/-- The opcode of a row of the opcode map. -/
def rowOpcode (r : Row) : BitVec 8 := r.matchWord.extractLsb' 24 8

theorem opcodes_of_opcodeMap : opcodeMap.map rowOpcode = definedOpcodes := by decide

/-- `match` and `mask` of a row say that the opcode is the row's and the reserved bits are zero. -/
theorem row_words {r : Row} (hr : r ∈ opcodeMap) :
    r.matchWord = rowOpcode r ++ 0#24 ∧ r.mask = 0xFF#8 ++ reservedMask (rowOpcode r) := by
  revert r
  decide

/-- A row's field constraint is about the length of ADPUSH and of MSGPUSH. -/
theorem row_constraint {r : Row} (hr : r ∈ opcodeMap) (ctrl : BitVec 32) : r.constraint ctrl = true ↔
    (rowOpcode r = 0x21#8 → nbytesField ctrl ≤ 16 ∧ (ctrl.getLsbD 8 = true ∨ nbytesField ctrl = 16)) ∧
      (rowOpcode r = 0x22#8 → 1 ≤ nbytesField ctrl ∧ nbytesField ctrl ≤ 16) := by
  simp only [opcodeMap, List.mem_cons, List.not_mem_nil, or_false] at hr
  rcases hr with rfl | rfl | rfl | rfl | rfl | rfl | rfl | rfl | rfl | rfl | rfl <;> simp [rowOpcode]

/-- A row selects the legal words with its opcode. -/
theorem selects_iff {r : Row} (hr : r ∈ opcodeMap) :
    r.selects ctrl ↔ LegalWord ctrl ∧ ctrl.extractLsb' 24 8 = rowOpcode r := by
  obtain ⟨hmatch, hmask⟩ := row_words hr
  rw [Row.selects, hmatch, hmask, and_opcode_mask_eq_iff, row_constraint hr]
  constructor
  · rintro ⟨⟨hop, hres⟩, had, hmsg⟩
    rw [← hop] at hres had hmsg
    refine ⟨⟨?_, hres, had, hmsg⟩, hop⟩
    rw [hop, ← opcodes_of_opcodeMap]
    exact List.mem_map_of_mem hr
  · rintro ⟨legal, hop⟩
    rw [← hop]
    exact ⟨⟨rfl, legal.reserved⟩, legal.adpush, legal.msgpush⟩

/-- Rows are disjoint because the opcodes differ (30_encoding R76). -/
theorem row_unique {a b : Nat} {r r' : Row} (ha : opcodeMap[a]? = some r) (hb : opcodeMap[b]? = some r')
    (hsel : r.selects ctrl) (hsel' : r'.selects ctrl) : a = b := by
  have hop : rowOpcode r = rowOpcode r' :=
    ((selects_iff (List.mem_of_getElem? ha)).1 hsel).2.symm.trans ((selects_iff (List.mem_of_getElem? hb)).1 hsel').2
  have distinct : (opcodeMap.map rowOpcode).Nodup := by rw [opcodes_of_opcodeMap]; decide
  have inside : a < (opcodeMap.map rowOpcode).length := by
    rw [List.length_map]
    exact (List.getElem?_eq_some_iff.1 ha).1
  refine (List.getElem?_inj inside distinct).1 ?_
  rw [List.getElem?_map, List.getElem?_map, ha, hb, Option.map_some, Option.map_some, hop]

/-- The control word of a well-formed command is selected by the command's row. -/
theorem row_selects_encodeCtrl (wf : i.wellFormed = true) :
    ∃ r, opcodeMap[rowOf i]? = some r ∧ r.selects (encodeCtrl i) := by
  cases i with
  | nop => exact ⟨_, rfl, Laws.EncodesInRow.nop, rfl⟩
  | zeroize => exact ⟨_, rfl, Laws.EncodesInRow.zeroize, rfl⟩
  | statrd => exact ⟨_, rfl, Laws.EncodesInRow.statrd, rfl⟩
  | keywr idx data => exact ⟨_, rfl, Laws.EncodesInRow.keywr idx data, rfl⟩
  | keyinit klen => exact ⟨_, rfl, Laws.EncodesInRow.keyinit klen, rfl⟩
  | begin => exact ⟨_, rfl, Laws.EncodesInRow.begin, rfl⟩
  | adpush nbytes last data =>
    refine ⟨_, rfl, Laws.EncodesInRow.adpush nbytes last data, ?_⟩
    obtain ⟨-, -, hlen, hlast⟩ := adpush_argument_fields nbytes last data
    have full : last = true ∨ nbytes.val = 16 := by simpa [Instr.wellFormed, Fin.ext_iff] using wf
    have bound : nbytes.val ≤ 16 := by omega
    rw [← encodeCtrl_field _ (by omega)] at hlen
    rw [← encodeCtrl_bit _ (by omega)] at hlast
    simp only [nbytesField, hlen, hlast, bound, decide_true, Bool.true_and, Bool.or_eq_true, decide_eq_true_eq, full]
  | msgpush nbytes data =>
    refine ⟨_, rfl, Laws.EncodesInRow.msgpush nbytes data, ?_⟩
    have hlen : nbytesField (encodeCtrl (.msgpush nbytes data)) = nbytes.val := by
      rw [nbytesField, encodeCtrl_field _ (by omega), argField, argument_field_toNat]; omega
    have nonempty : 1 ≤ nbytes.val := by simpa [Instr.wellFormed] using wf
    have bound : nbytes.val ≤ 16 := by omega
    simp [hlen, nonempty, bound]
  | encrypt => exact ⟨_, rfl, Laws.EncodesInRow.encrypt, rfl⟩
  | decrypt => exact ⟨_, rfl, Laws.EncodesInRow.decrypt, rfl⟩
  | outrd blk => exact ⟨_, rfl, Laws.EncodesInRow.outrd blk, rfl⟩

/-! ## A legal word decodes (30_encoding R78) -/

theorem decodeN_of_reserved (i : Instr) (h : ctrl.extractLsb' 0 24 &&& 0xFFFFFF#24 = 0) : decodeN ctrl i = .ok i :=
  if_pos (field_eq_zero_of_and_mask (by decide) (by decide) h)

theorem decodes_of_legalWord (legal : LegalWord ctrl) (data : Block) : ∃ i, decode ctrl data = .ok i := by
  obtain ⟨hop, hres, had, hmsg⟩ := legal
  rw [decode]
  generalize ctrl.extractLsb' 24 8 = op at hop hres had hmsg ⊢
  simp only [definedOpcodes, List.mem_cons, List.not_mem_nil, or_false] at hop
  rcases hop with rfl | rfl | rfl | rfl | rfl | rfl | rfl | rfl | rfl | rfl | rfl
  · exact ⟨_, decodeN_of_reserved _ hres⟩
  · exact ⟨_, decodeN_of_reserved _ hres⟩
  · exact ⟨_, decodeN_of_reserved _ hres⟩
  · exact ⟨_, if_pos (field_eq_zero_of_and_mask (by decide) (by decide) hres)⟩
  · exact ⟨_, if_pos (field_eq_zero_of_and_mask (by decide) (by decide) hres)⟩
  · exact ⟨_, decodeN_of_reserved _ hres⟩
  · have hhigh : ctrl.extractLsb' 9 15 = 0 := field_eq_zero_of_and_mask (by decide) (by decide) hres
    have hmid : ctrl.extractLsb' 5 3 = 0 := field_eq_zero_of_and_mask (by decide) (by decide) hres
    obtain ⟨hlen, hlast⟩ := had rfl
    exact ⟨_, (if_pos ⟨hhigh, hmid⟩).trans ((dif_pos (Nat.lt_succ_of_le hlen)).trans (if_pos hlast))⟩
  · have hhigh : ctrl.extractLsb' 5 19 = 0 := field_eq_zero_of_and_mask (by decide) (by decide) hres
    obtain ⟨nonempty, hlen⟩ := hmsg rfl
    exact ⟨_, (if_pos hhigh).trans ((dif_pos (Nat.lt_succ_of_le hlen)).trans (if_pos nonempty))⟩
  · exact ⟨_, decodeN_of_reserved _ hres⟩
  · exact ⟨_, decodeN_of_reserved _ hres⟩
  · exact ⟨_, rfl⟩

/-! ## A word that decodes is the encoding of its command (30_encoding R91) -/

/-- The command has this opcode and argument, and meets its row's field constraint. -/
def HasFields (i : Instr) (op : Nat) (arg : BitVec 24) : Prop :=
  (opcodeByte i).toNat = op ∧ argField i = arg ∧ i.wellFormed = true

theorem HasFields.of_decodeN {op : Nat} {j : Instr} (hj : HasFields j op 0) (h : decodeN ctrl j = .ok i) :
    HasFields i op (ctrl.extractLsb' 0 24) := by
  unfold decodeN at h
  split at h
  next hres =>
    cases h
    rwa [hres]
  next => cases h

theorem HasFields.of_decodeK (h : decodeK ctrl data = .ok i) : HasFields i 0x10 (ctrl.extractLsb' 0 24) := by
  unfold decodeK at h
  split at h
  next hres =>
    cases h
    exact ⟨rfl, low_field_eq_argument rfl hres, rfl⟩
  next => cases h

theorem HasFields.of_decodeL (h : decodeL ctrl = .ok i) : HasFields i 0x11 (ctrl.extractLsb' 0 24) := by
  unfold decodeL at h
  split at h
  next hres =>
    cases h
    exact ⟨rfl, low_field_eq_argument rfl hres, rfl⟩
  next => cases h

theorem HasFields.of_decodeR (h : decodeR ctrl = .ok i) : HasFields i 0x40 (ctrl.extractLsb' 0 24) := by
  cases h
  exact ⟨rfl, BitVec.ofNat_toNat _ _, rfl⟩

theorem adpush_argument_toNat (nbytes : Fin 17) (last : Bool) (data : Block) :
    (argField (.adpush nbytes last data)).toNat = 256 * last.toNat + nbytes.val := by
  simp only [argField]
  revert nbytes last
  decide

theorem HasFields.of_decodeB (h : decodeB ctrl data = .ok i) : HasFields i 0x21 (ctrl.extractLsb' 0 24) := by
  simp only [decodeB] at h
  split_ifs at h with hres hlen hlast
  cases h
  refine ⟨rfl, BitVec.eq_of_toNat_eq ?_, by simpa [Instr.wellFormed, Fin.ext_iff] using hlast⟩
  have hhigh := (field_eq_zero ctrl 9 15).1 hres.1
  have hmid := (field_eq_zero ctrl 5 3).1 hres.2
  have hlow := field_toNat ctrl 0 5
  have hbit : (ctrl.getLsbD 8).toNat = ctrl.toNat / 2 ^ 8 % 2 := Nat.toNat_testBit _ _
  rw [adpush_argument_toNat, hbit, field_toNat ctrl 0 24]
  dsimp only
  omega

theorem HasFields.of_decodeM (h : decodeM ctrl data = .ok i) : HasFields i 0x22 (ctrl.extractLsb' 0 24) := by
  simp only [decodeM] at h
  split_ifs at h with hres hlen nonempty
  cases h
  exact ⟨rfl, low_field_eq_argument rfl hres, by simpa [Instr.wellFormed] using nonempty⟩

theorem HasFields.of_decodeOp {op : Nat} (h : decodeOp op ctrl data = .ok i) :
    HasFields i op (ctrl.extractLsb' 0 24) := by
  unfold decodeOp at h
  split at h
  · exact .of_decodeN ⟨rfl, rfl, rfl⟩ h
  · exact .of_decodeN ⟨rfl, rfl, rfl⟩ h
  · exact .of_decodeN ⟨rfl, rfl, rfl⟩ h
  · exact .of_decodeK h
  · exact .of_decodeL h
  · exact .of_decodeN ⟨rfl, rfl, rfl⟩ h
  · exact .of_decodeB h
  · exact .of_decodeM h
  · exact .of_decodeN ⟨rfl, rfl, rfl⟩ h
  · exact .of_decodeN ⟨rfl, rfl, rfl⟩ h
  · exact .of_decodeR h
  · cases h

/-- A control word that decodes is the one the encoder writes for the command, and the command is legal. -/
theorem encodeCtrl_of_decode (h : decode ctrl data = .ok i) : encodeCtrl i = ctrl ∧ i.wellFormed = true := by
  obtain ⟨hop, harg, wf⟩ := HasFields.of_decodeOp h
  exact ⟨encodeCtrl_eq (BitVec.eq_of_toNat_eq hop) harg, wf⟩

/-- A word that decodes is selected by its command's row. -/
theorem row_selects_of_decode (h : decode ctrl data = .ok i) : ∃ r, opcodeMap[rowOf i]? = some r ∧ r.selects ctrl := by
  obtain ⟨rfl, wf⟩ := encodeCtrl_of_decode h
  exact row_selects_encodeCtrl wf

/-- The decoder accepts exactly the legal words, whatever `data` is. -/
theorem decodes_iff_legalWord : (∃ i, decode ctrl data = .ok i) ↔ LegalWord ctrl := by
  constructor
  · rintro ⟨i, h⟩
    obtain ⟨r, hr, hsel⟩ := row_selects_of_decode h
    exact ((selects_iff (List.mem_of_getElem? hr)).1 hsel).1
  · exact fun legal => decodes_of_legalWord legal data

theorem rejects_iff_illegalCase : (∃ e, decode ctrl data = .error e) ↔ IllegalCase ctrl := by
  rw [illegalCase_iff, ← decodes_iff_legalWord (data := data)]
  cases decode ctrl data <;> simp

/-! ## The operand in the `data` word (30_encoding R70, R74) -/

/-- A well-formed command decodes from its control word and its own operand. -/
theorem decode_encodeCtrl (wf : i.wellFormed = true) : decode (encodeCtrl i) (dataField i) = .ok i := by
  rw [← decodeRecord_mkRecord]
  exact decodeRecord_encode wf

/-- The control word of a well-formed command as a number decodes to it, with its own operand as `data`. -/
theorem decode_number (wf : i.wellFormed = true) {op arg n : Nat} (hop : (opcodeByte i).toNat = op)
    (harg : (argField i).toNat = arg) (hn : n = op * 2 ^ 24 + arg) :
    decode (BitVec.ofNat 32 n) (dataField i) = .ok i := by
  rw [hn, ← hop, ← harg, ← encodeCtrl_toNat, BitVec.ofNat_toNat, BitVec.setWidth_eq, decode_encodeCtrl wf]

theorem argument_toNat {n : Nat} (h : n < 2 ^ 24) : (BitVec.ofNat 24 n).toNat = n := by
  rw [BitVec.toNat_ofNat, Nat.mod_eq_of_lt h]

/-- No two legal commands share a control word and an operand. -/
theorem eq_of_decode {j : Instr} (h : decode ctrl data = .ok i) (wf : j.wellFormed = true)
    (hctrl : encodeCtrl j = ctrl) (hdata : dataField j = data) : i = j := by
  rw [← hctrl, ← hdata, decode_encodeCtrl wf] at h
  exact (Except.ok.inj h).symm

/-- The operand of a decoded command is the record's `data` word, or it has none and `data` does not matter. -/
theorem dataField_of_decode (h : decode ctrl data = .ok i) :
    dataField i = data ∨ (dataField i = 0 ∧ ∀ other, decode ctrl other = .ok i) := by
  obtain ⟨rfl, wf⟩ := encodeCtrl_of_decode h
  cases i with
  | keywr idx w => exact .inl (congrArg dataField (eq_of_decode h (j := .keywr idx data) rfl rfl rfl))
  | adpush nbytes last w =>
    exact .inl (congrArg dataField (eq_of_decode h (j := .adpush nbytes last data) wf rfl rfl))
  | msgpush nbytes w => exact .inl (congrArg dataField (eq_of_decode h (j := .msgpush nbytes data) wf rfl rfl))
  | _ => exact .inr ⟨rfl, fun _ => decode_data_irrelevant h nofun nofun nofun⟩

end Sys2Proof

/-! PROOFS. Responses (30_encoding R72) and the abort of a failure (60_exceptions R210). -/

namespace Sys2Proof.Machine

/-- Only STATRD and OUTRD have read data. -/
theorem OkCase.rdata_zero {i : Instr} {s u : State} {w : Block} (h : OkCase i s u w) (hs : i ≠ .statrd)
    (ho : ∀ blk, i ≠ .outrd blk) : w = 0 := by
  cases i with
  | statrd => exact absurd rfl hs
  | outrd blk => exact absurd rfl (ho blk)
  | nop => obtain ⟨-, rfl⟩ := h; rfl
  | zeroize => obtain ⟨-, rfl⟩ := h; rfl
  | keywr idx data => obtain ⟨-, -, rfl⟩ := h; rfl
  | keyinit klen => obtain ⟨-, -, -, -, rfl⟩ := h; rfl
  | begin => obtain ⟨-, -, rfl⟩ := h; rfl
  | adpush nbytes last data => obtain ⟨-, -, -, rfl⟩ := h; rfl
  | msgpush nbytes data => obtain ⟨-, -, -, -, rfl⟩ := h; rfl
  | encrypt => obtain ⟨-, -, -, -, rfl⟩ := h; rfl
  | decrypt => obtain ⟨-, -, -, -, -, rfl⟩ := h; rfl

end Sys2Proof.Machine

namespace Sys2Proof.Claims

open Sys2Proof.Machine

/-- The response record holds the code above the read data. -/
theorem response_fields (r : Response) :
    r.bits.extractLsb' 128 4 = codeNumber r.rc ∧ r.bits.extractLsb' 0 128 = r.rdata := by
  have hcode : r.rc.code = codeNumber r.rc := by cases r.rc <;> rfl
  rw [← hcode]
  exact ⟨BitVec.extractLsb'_append_eq_left, BitVec.extractLsb'_append_eq_right⟩

/-- `fail` leaves the abort and its response. -/
theorem aborted_fail (s : State) (code : RespCode) : Aborted s code ((s.abort code).emit code 0) where
  answered := ⟨rfl, rfl⟩
  staging := ⟨fun j => by fin_cases j <;> rfl, rfl⟩
  chain := ⟨rfl, rfl, rfl, rfl⟩
  buffers := ⟨rfl, rfl⟩
  phase := rfl
  err := rfl
  keys := ⟨rfl, rfl, rfl, rfl, rfl⟩

end Sys2Proof.Claims

/-! PROOFS. The statements about 30_encoding. -/

namespace Sys2Proof.Claims

open Sys2Proof.Machine Sys2Proof.Safety

/-- Settles O4: the decoder runs on the twelve words. -/
theorem wordsOfEachRowDecode : Obligations.WordsOfEachRowDecode :=
  ⟨rfl, rfl, rfl, rfl, rfl, rfl, rfl, rfl, rfl, rfl, rfl, rfl⟩

/-- Settles O5: each format's decoder reads back the fields the encoder writes. -/
theorem decodeOfEncodeIsTheCommand : Obligations.DecodeOfEncodeIsTheCommand := fun _ wf => decodeRecord_encode wf

/-- Settles O6: a decoder that accepts has checked every bit of the word that the encoder does not write as a field. -/
theorem legalWordIsTheEncodingOfItsCommand : Obligations.LegalWordIsTheEncodingOfItsCommand := by
  intro ctrl data i h
  obtain ⟨hc, wf⟩ := encodeCtrl_of_decode h
  exact ⟨hc, wf, dataField_of_decode h⟩

/-- Settles O7: the numbers are the encoder's words, and those decode to their commands. -/
theorem fieldsStandWhereTheFormatsPlaceThem : Obligations.FieldsStandWhereTheFormatsPlaceThem := by
  refine ⟨fun idx data => ?_, fun klen data => ?_, fun nbytes data => ?_, fun data => ?_, fun nbytes data h => ?_,
    fun blk data => ?_⟩
  · exact decode_number (i := .keywr idx data) (op := 0x10) rfl rfl (argument_toNat (by omega)) (by omega)
  · exact decode_data_irrelevant
      (decode_number (i := .keyinit klen) (op := 0x11) rfl rfl (argument_toNat (by omega)) (by omega))
      nofun nofun nofun
  · exact decode_number (i := .adpush nbytes true data) (op := 0x21) rfl rfl (adpush_argument_toNat nbytes true data)
      (by rw [Bool.toNat_true]; omega)
  · exact decode_number (i := .adpush 16 false data) (op := 0x21) (arg := 16) rfl rfl rfl rfl
  · exact decode_number (i := .msgpush nbytes data) (op := 0x22) (decide_eq_true h) rfl (argument_toNat (by omega))
      (by omega)
  · exact decode_data_irrelevant
      (decode_number (i := .outrd blk) (op := 0x40) rfl rfl (argument_toNat (by omega)) (by omega))
      nofun nofun nofun

/-- Settles O8: a selected word is legal, so it decodes, to a command whose row selects it too; and the rows are
disjoint. -/
theorem exactlyOneRowSelectsALegalWord : Obligations.ExactlyOneRowSelectsALegalWord := by
  intro ctrl data
  refine ⟨fun k r hr => ⟨fun hsel => ?_, ?_⟩, fun i h => row_selects_of_decode h,
    fun a b r r' ha hb hsel hsel' => row_unique ha hb hsel hsel'⟩
  · obtain ⟨i, h⟩ := decodes_of_legalWord ((selects_iff (List.mem_of_getElem? hr)).1 hsel).1 data
    obtain ⟨r', hr', hsel'⟩ := row_selects_of_decode h
    exact ⟨i, h, row_unique hr' hr hsel' hsel⟩
  · rintro ⟨i, h, rfl⟩
    obtain ⟨r', hr', hsel'⟩ := row_selects_of_decode h
    rwa [Option.some.inj (hr.symm.trans hr')]

/-- Settles O9: the decoder accepts exactly the legal words, and a rejected record fails with the abort. -/
theorem illegalWordsAreTheFiveCases : Obligations.IllegalWordsAreTheFiveCases := by
  refine ⟨fun ctrl data => rejects_iff_illegalCase, fun s c rest hin hill => ?_⟩
  obtain ⟨e, hd⟩ : ∃ e, decodeRecord c = .error e := rejects_iff_illegalCase.2 hill
  refine ⟨_, ?_, aborted_fail (s.withInbox rest) .illegal⟩
  rw [step_command hin, hd, fail_eq]

/-- Settles O14: a record is answered in the OK case of its command, which gives the read data, or by `fail`; STATRD
is always in its OK case. -/
theorem everyCommandGivesOneResponse : Obligations.EveryCommandGivesOneResponse := by
  intro s c rest hin
  rcases step_command_cases hin with ⟨i, u, w, hd, hok, e⟩ | ⟨code, failed, e⟩
  · obtain ⟨hrsps, hinbox⟩ := hok.frame
    refine ⟨_, ⟨.ok, w⟩, e, by rw [State.emit_rsps, hrsps, State.withInbox_rsps],
      by rw [State.emit_inbox, hinbox, State.withInbox_inbox], (response_fields _).1, (response_fields _).2,
      fun bad => absurd rfl bad, fun j hj => ?_⟩
    obtain rfl : i = j := Except.ok.inj (hd.symm.trans hj)
    refine ⟨?_, ?_, hok.rdata_zero⟩
    · rintro rfl
      obtain ⟨-, rfl⟩ := hok
      exact ⟨rfl, rfl⟩
    · rintro blk rfl -
      obtain ⟨-, -, -, rfl⟩ := hok
      rfl
  · refine ⟨_, ⟨code, 0⟩, e, rfl, rfl, (response_fields _).1, (response_fields _).2, fun _ => rfl, fun i hd =>
      ⟨?_, fun _ _ ok => absurd ok failed, fun _ _ => rfl⟩⟩
    rintro rfl
    have answered := step_ok (w := statusWord s) hin hd ⟨rfl, rfl⟩
    rw [e] at answered
    have hresponse : code = .ok ∧ 0 = statusWord s := by
      simpa using congrArg State.rsps (Host.Outcome.next.inj answered)
    exact absurd hresponse.1 failed

/-- Settles O56: each block of the result is inside it, so each OUTRD is in its OK case. -/
theorem outSequenceReadsTheResult : Obligations.OutSequenceReadsTheResult := fun s hp cap =>
  ⟨_, (okRun_outSeq hp cap).runs, readsBack_resultBlocks s.obuf⟩

end Sys2Proof.Claims

/-! PROOFS. The doubler (40_doubler R100, R102). -/

namespace Sys2Proof.Machine

theorem dbl_of_msb {b : Block} (h : b.msb = true) : dbl b = (b <<< 1) ^^^ 0x87#128 := if_pos h

theorem dbl_of_not_msb {b : Block} (h : ¬b.msb = true) : dbl b = b <<< 1 := if_neg h

/-- The shifted-out bit comes back as bit 0, which the shift leaves clear (40_doubler R102 (b)). -/
theorem dbl_getLsbD_zero (b : Block) : (dbl b).getLsbD 0 = b.msb := by
  rw [dbl_getLsbD b 0 (by omega)]
  simp

theorem dbl_getLsbD_succ (b : Block) {n : Nat} (h : n < 127) :
    (dbl b).getLsbD (n + 1) = (b.getLsbD n ^^ (b.msb && (0x87#128).getLsbD (n + 1))) := by
  rw [dbl_getLsbD b (n + 1) (by omega)]
  simp

theorem dbl_xor (a b : Block) : dbl (a ^^^ b) = dbl a ^^^ dbl b := by
  refine BitVec.eq_of_getLsbD_eq fun n hn => ?_
  rw [BitVec.getLsbD_xor]
  cases n with
  | zero => simp only [dbl_getLsbD_zero, BitVec.msb_xor]
  | succ n =>
    simp only [dbl_getLsbD_succ _ (Nat.lt_of_succ_lt_succ hn), BitVec.getLsbD_xor, BitVec.msb_xor,
      Bool.and_xor_distrib_right, Bool.xor_assoc, Bool.xor_left_comm]

/-- Nothing is reduced when the result is zero, so every bit of the shift is zero. -/
theorem eq_zero_of_dbl_eq_zero {b : Block} (h : dbl b = 0) : b = 0 := by
  have hmsb : b.msb = false := by rw [← dbl_getLsbD_zero, h]; rfl
  refine BitVec.eq_of_getLsbD_eq fun n hn => ?_
  rcases Nat.lt_or_ge n 127 with below | top
  · have hbit := dbl_getLsbD_succ b below
    simpa [h, hmsb] using hbit
  · obtain rfl : n = 127 := by omega
    rw [← BitVec.msb_eq_getLsbD_last b, hmsb]
    exact BitVec.getLsbD_zero.symm

/-- A linear map with a zero kernel. -/
theorem dbl_injective : Function.Injective dbl := by
  intro a b h
  refine BitVec.xor_eq_zero_iff.1 (eq_zero_of_dbl_eq_zero ?_)
  rw [dbl_xor, h, BitVec.xor_self]
  rfl

/-- There are as many blocks as results. -/
theorem dbl_surjective : Function.Surjective dbl :=
  haveI : Finite Block := Finite.of_injective BitVec.toFin fun _ _ => BitVec.eq_of_toFin_eq
  Finite.surjective_of_injective dbl_injective

theorem msb_iff_toNat_div (b : Block) : b.msb = true ↔ b.toNat / 2 ^ 127 = 1 := by
  rw [BitVec.msb_eq_decide, decide_eq_true_iff]
  have := b.isLt
  omega

theorem msb_iff_firstByte (b : Block) : b.msb = true ↔ 0x80#8 ≤ b.extractLsb' 120 8 := by
  rw [msb_iff_toNat_div, BitVec.le_def, BitVec.extractLsb'_toNat, Nat.shiftRight_eq_div_pow]
  have := b.isLt
  simp only [BitVec.toNat_ofNat]
  omega

theorem toNat_dbl (b : Block) :
    (dbl b).toNat = if b.toNat / 2 ^ 127 = 1 then (2 * b.toNat % 2 ^ 128) ^^^ 0x87 else 2 * b.toNat % 2 ^ 128 := by
  have shifted : (b <<< 1).toNat = 2 * b.toNat % 2 ^ 128 := by
    rw [BitVec.toNat_shiftLeft, Nat.shiftLeft_eq, Nat.pow_one, Nat.mul_comm]
  by_cases h : b.msb = true
  · rw [dbl_of_msb h, if_pos ((msb_iff_toNat_div b).1 h), BitVec.toNat_xor, shifted]
    rfl
  · rw [dbl_of_not_msb h, if_neg (mt (msb_iff_toNat_div b).2 h), shifted]

/-- The constant 0x87 lies in the low byte, so any other byte is that of the shift: its own bits and the top bit of the
byte below. -/
theorem dbl_upperByte (b : Block) {m : Nat} (hm : m + 16 ≤ 128) :
    (dbl b).extractLsb' (m + 8) 8 = (b.extractLsb' (m + 8) 8 <<< 1) ||| (b.extractLsb' m 8 >>> 7) := by
  refine BitVec.eq_of_getLsbD_eq fun k hk => ?_
  have bit : (dbl b).getLsbD (m + 8 + k) = b.getLsbD (m + 7 + k) := by
    have outside : (0x87#128).getLsbD (m + 7 + k + 1) = false :=
      Nat.testBit_lt_two_pow (Nat.lt_of_lt_of_le (m := 2 ^ 8) (by decide) (Nat.pow_le_pow_right (by decide) (by omega)))
    rw [show m + 8 + k = m + 7 + k + 1 by omega, dbl_getLsbD_succ b (by omega), outside, Bool.and_false, Bool.xor_false]
  rw [BitVec.getLsbD_extractLsb', bit]
  cases k with
  | zero => simp
  | succ k => simp [show m + 7 + (k + 1) = m + 8 + k by omega, show k < 8 by omega, show ¬7 + (k + 1) < 8 by omega]

theorem dbl_lowByte (b : Block) :
    (dbl b).extractLsb' 0 8 =
      if 0x80#8 ≤ b.extractLsb' 120 8 then (b.extractLsb' 0 8 <<< 1) ^^^ 0x87#8 else b.extractLsb' 0 8 <<< 1 := by
  have shifted : (b <<< 1).extractLsb' 0 8 = b.extractLsb' 0 8 <<< 1 := by
    simp only [← BitVec.setWidth_eq_extractLsb' (show 8 ≤ 128 by decide),
      BitVec.setWidth_shiftLeft_of_le (show 8 ≤ 128 by decide)]
  by_cases h : b.msb = true
  · rw [dbl_of_msb h, if_pos ((msb_iff_firstByte b).1 h), BitVec.extractLsb'_xor, shifted]
    rfl
  · rw [dbl_of_not_msb h, if_neg (mt (msb_iff_firstByte b).2 h), shifted]

end Sys2Proof.Machine

namespace Sys2Proof.Claims

open Sys2Proof.Machine

/-- Settles O34: the number, the bytes above the constant 0x87, and the byte it is xored into. -/
theorem doublerShiftsAndReduces : Obligations.DoublerShiftsAndReduces := by
  refine fun b => ⟨toNat_dbl b, fun i hi => ?_, dbl_lowByte b⟩
  rw [show 8 * (15 - i) = 8 * (15 - (i + 1)) + 8 by omega]
  exact dbl_upperByte b (by omega)

/-- Settles O35: a linear map with a zero kernel on a finite set, with the shifted-out bit as bit 0. -/
theorem doublerIsALinearBijection : Obligations.DoublerIsALinearBijection :=
  ⟨dbl_xor, fun _ _ h => dbl_injective h, dbl_surjective, fun b => (dbl_getLsbD_zero b).symm,
    fun _ => eq_zero_of_dbl_eq_zero⟩

end Sys2Proof.Claims

/-! PROOFS. The statements about 41_cmac, from the rules of `cmacWith` and `cmacFinish`, which hold for any two subkeys. -/

namespace Sys2Proof.Claims

open Sys2Proof.Machine

/-- Settles O36: a string of one block is full and carries `K1` (the zero block is `s2v_init`'s), a shorter one is padded
and carries `K2`. -/
theorem cmacOfAtMostOneBlock : Obligations.CmacOfAtMostOneBlock := fun ek =>
  ⟨s2vInitWith_eq ek _ _, cmacWith_block ek _ _, cmacWith_short ek _ _⟩

/-- Settles O37: the empty string is its one empty beat; for any other, the absorbed beats are the blocks before the last,
and the last beat is full exactly when the length is a multiple of 16. -/
theorem streamingCmacIsCmac : Obligations.StreamingCmacIsCmac := by
  intro ek m k q
  constructor
  · rintro rfl
    exact cmacFinish_empty ek k.1 k.2
  · intro nonempty
    exact cmacFinish_beats ek k.1 k.2 (mt List.length_eq_zero_iff.1 nonempty)

end Sys2Proof.Claims

/-! PROOFS. The last S2V component (42_s2v R132), and the beats of components and message in any interleaving
(42_s2v R134). -/

namespace Sys2Proof.Machine

/-! ## `xorend` as a block operation (42_s2v R132) -/

/-- `xorend` keeps the bytes before the last 16 and xors `D` into those. -/
theorem xorend_eq {m : ByteString} (d : Block) (h : 16 ≤ m.length) :
    xorend m d h =
      m.take (m.length - 16) ++ topBytes 16 (packBytes 128 (m.drop (m.length - 16)) ^^^ d) := by
  have hlen : (m.drop (m.length - 16)).length = 16 := by rw [List.length_drop]; omega
  have unpacked := topBytes_packBytes_self 128 (m.drop (m.length - 16)) (by omega)
  rw [hlen] at unpacked
  rw [xorend, ← xorBytes_topBytes, unpacked]

/-! ## The unused bytes of a beat (20_memory R53) -/

/-- Zeroing the bytes after the first `nbytes` keeps those. -/
theorem topBytes_zeroFilled (nbytes : Fin 17) (w : Block) :
    topBytes nbytes.val (packBytes 128 (topBytes nbytes.val w)) = topBytes nbytes.val w := by
  have kept := topBytes_packBytes_self 128 (topBytes nbytes.val w) (by rw [topBytes_length]; omega)
  rwa [topBytes_length] at kept

/-! ## The commands of a transaction commute across its two streams (42_s2v R134) -/

/-- ADPUSH works on the chain, MSGPUSH on the input buffer: an ADPUSH and the MSGPUSH after it may change places. -/
theorem OkCase.adpush_msgpush_swap {nbytes k : Fin 17} {last : Bool} {a b : Block} {s u t : State} {v w : Block}
    (ha : OkCase (.adpush nbytes last a) s u v) (hm : OkCase (.msgpush k b) u t w) :
    ∃ u', OkCase (.msgpush k b) s u' w ∧ OkCase (.adpush nbytes last a) u' t v := by
  obtain ⟨hp, hopen, rfl, rfl⟩ := ha
  obtain ⟨-, hclosed, room, rfl, rfl⟩ := hm
  cases last <;> exact ⟨_, ⟨hp, hclosed, room, rfl, rfl⟩, hp, hopen, rfl, rfl⟩

end Sys2Proof.Machine

namespace Sys2Proof.Claims

open Sys2Proof.Machine Sys2Proof.Safety

theorem wellFormed_zeroFilled (i : Instr) : (zeroFilled i).wellFormed = i.wellFormed := by
  cases i <;> rfl

/-- A non-final ADPUSH beat has no unused byte, and the others are used up to their valid bytes. -/
theorem okCase_of_zeroFilled {i : Instr} {s u : State} {w : Block} (wf : i.wellFormed = true)
    (h : OkCase (zeroFilled i) s u w) : OkCase i s u w := by
  cases i with
  | adpush nbytes last data =>
    obtain ⟨hp, hopen, rfl, rfl⟩ := h
    refine ⟨hp, hopen, ?_, rfl⟩
    cases last with
    | true => rw [if_pos rfl, if_pos rfl, cmacFinish_congr _ _ _ _ (topBytes_zeroFilled nbytes data)]
    | false =>
      obtain rfl : nbytes = 16 := by simpa [Instr.wellFormed] using wf
      rw [show packBytes 128 (topBytes (16 : Fin 17).val data) = data from packBytes_topBytes_block data]
  | msgpush nbytes data =>
    obtain ⟨hp, hclosed, room, rfl, rfl⟩ := h
    exact ⟨hp, hclosed, room, by rw [beatBytes, beatBytes, topBytes_zeroFilled], rfl⟩
  | _ => exact h

/-- A sequence that runs with zero-filled beats runs the same with any unused bytes. -/
theorem OkRun.of_zeroFilled {is : List Instr} {s t : State} {ws : List Block} (h : OkRun s (is.map zeroFilled) t ws) :
    OkRun s is t ws := by
  induction is generalizing s ws with
  | nil => exact h
  | cons i is ih =>
    cases h with
    | cons wf ok rest =>
      rw [wellFormed_zeroFilled] at wf
      exact .cons wf (okCase_of_zeroFilled wf ok) (ih rest)

/-! ## Beats of components and beats of the message in any interleaving (42_s2v R134) -/

theorem quietRun_cons_iff {i : Instr} {is : List Instr} {s t : State} :
    QuietRun s (i :: is) t ↔ i.wellFormed = true ∧ ∃ u, OkCase i s u 0 ∧ QuietRun u is t := by
  constructor
  · intro h
    cases h with
    | cons wf ok rest => exact ⟨wf, _, ok, rest⟩
  · rintro ⟨wf, u, ok, rest⟩
    exact .cons wf ok rest

theorem exists_of_isAdpush {i : Instr} (h : isAdpush i = true) : ∃ nbytes last w, i = .adpush nbytes last w := by
  cases i with
  | adpush nbytes last w => exact ⟨nbytes, last, w, rfl⟩
  | _ => cases h

/-- A MSGPUSH after ADPUSH beats may be issued before them. -/
theorem QuietRun.msgpush_first {as ms : List Instr} {k : Fin 17} {b : Block} {s t : State}
    (has : ∀ i ∈ as, isAdpush i = true) (h : QuietRun s (as ++ .msgpush k b :: ms) t) :
    QuietRun s (.msgpush k b :: (as ++ ms)) t := by
  induction as generalizing s with
  | nil => exact h
  | cons a as ih =>
    rw [List.forall_mem_cons] at has
    obtain ⟨wfa, u, ha, rest⟩ := quietRun_cons_iff.1 h
    obtain ⟨wfm, v, hm, rest'⟩ := quietRun_cons_iff.1 (ih has.2 rest)
    obtain ⟨nbytes, last, data, rfl⟩ := exists_of_isAdpush has.1
    obtain ⟨u', hm', ha'⟩ := OkCase.adpush_msgpush_swap ha hm
    exact quietRun_cons_iff.2 ⟨wfm, u', hm', quietRun_cons_iff.2 ⟨wfa, v, ha', rest'⟩⟩

/-- ADPUSH beats and MSGPUSH beats in any interleaving do what the ADPUSH beats followed by the MSGPUSH beats do. -/
theorem QuietRun.interleave {is : List Instr} {s t : State}
    (beats : ∀ i ∈ is, isAdpush i = true ∨ ∃ k b, i = .msgpush k b)
    (h : QuietRun s (is.filter isAdpush ++ is.filter fun i => !isAdpush i) t) : QuietRun s is t := by
  induction is generalizing s with
  | nil => exact h
  | cons i is ih =>
    rw [List.forall_mem_cons] at beats
    obtain ⟨hi | ⟨k, b, rfl⟩, beats⟩ := beats
    · rw [List.filter_cons_of_pos hi, List.filter_cons_of_neg (by simp [hi])] at h
      obtain ⟨wf, u, ok, rest⟩ := quietRun_cons_iff.1 h
      exact quietRun_cons_iff.2 ⟨wf, u, ok, ih beats rest⟩
    · rw [List.filter_cons_of_neg (by simp [isAdpush]), List.filter_cons_of_pos (by simp [isAdpush])] at h
      obtain ⟨wf, u, ok, rest⟩ := quietRun_cons_iff.1 (h.msgpush_first fun i hi => (List.mem_filter.1 hi).2)
      exact quietRun_cons_iff.2 ⟨wf, u, ok, ih beats rest⟩

theorem mem_msgSeq {m : ByteString} {i : Instr} (h : i ∈ msgSeq m) : ∃ k b, i = .msgpush k b := by
  obtain ⟨j, -, rfl⟩ := List.mem_map.1 h
  exact ⟨_, _, rfl⟩

/-- A transaction up to its last command, with the beats interleaved and their unused bytes arbitrary. -/
theorem quietRun_interleaved {s : State} {ads : List ByteString} {m : ByteString} {is : List Instr}
    (hi : Inv Config.chip s) (hp : s.phase = .ready ∨ s.phase = .done) (room : m.length ≤ Config.chip.bufCap)
    (hads : (is.map zeroFilled).filter isAdpush = ads.flatMap adSeq)
    (hmsg : (is.map zeroFilled).filter (fun i => !isAdpush i) = msgSeq m) :
    QuietRun s (.begin :: is) (s.collected ads m) := by
  have beats : ∀ i ∈ is.map zeroFilled, isAdpush i = true ∨ ∃ k b, i = .msgpush k b := by
    intro i hmem
    by_cases ha : isAdpush i = true
    · exact .inl ha
    · exact .inr (mem_msgSeq (hmsg ▸ List.mem_filter.2 ⟨hmem, by simpa using ha⟩))
  obtain ⟨wf, u, begun, sorted⟩ := quietRun_cons_iff.1 (quietRun_collect ads hi hp room)
  rw [← hads, ← hmsg] at sorted
  have filled := sorted.interleave beats
  rw [QuietRun, List.length_map] at filled
  exact quietRun_cons_iff.2 ⟨wf, u, begun, filled.of_zeroFilled⟩

end Sys2Proof.Claims

/-! PROOFS. The statements about 42_s2v. -/

namespace Sys2Proof.Claims

open Sys2Proof.Machine

/-- Settles O38: `xorend` changes the last 16 bytes only, as a block; below 16 bytes `T` is a block. -/
theorem s2vLastComponent : Obligations.S2vLastComponent := by
  refine fun d m => ⟨fun long => ?_, fun short => ?_⟩
  · have hkept : (m.take (m.length - 16)).length = m.length - 16 := by rw [List.length_take]; omega
    refine ⟨by rw [s2vLast_long d long, xorend_length], ?_, ?_⟩
    · rw [s2vLast_long d long, xorend_eq, List.take_left' hkept]
    · rw [s2vLast_long d long, xorend_eq, List.drop_left' hkept, packBytes_topBytes_block]
  · rw [s2vLast_short d short]
    exact ⟨topBytes_length _ _, packBytes_topBytes_block _⟩

/-- Settles O52: the beats sorted into components and message run as in the sequences of 30_encoding R93, and any
interleaving of them runs the same. -/
theorem interleavedBeatsFoldToS2v : Obligations.InterleavedBeatsFoldToS2v := by
  intro s ads m is hi hp room hads hmsg
  have siv := sivOf_collected ads m m hi (keyed_of_idle hp)
  exact ⟨_, (quietRun_interleaved hi hp room hads hmsg).runs, by simp [oks], rfl, rfl,
    State.collected_ibuf s ads m, rfl, siv, rfl, rfl, rfl, rfl, rfl⟩

end Sys2Proof.Claims

/-! PROOFS. The masked seed and the counter blocks that start from it (43_siv_ctr R140 to R144). -/

namespace Sys2Proof.Machine

/-! ## The mask -/

/-- The word `qMask` clears has bits 63 and 31 only (43_siv_ctr R140). -/
theorem maskWord_getLsbD {n : Nat} (h : n < 128) :
    (0x80000000_80000000#128).getLsbD n = decide (n = 63 ∨ n = 31) := by
  revert n
  decide

theorem qMask_getLsbD (s : Block) {n : Nat} (h : n < 128) :
    (qMask s).getLsbD n = (s.getLsbD n && decide (n ≠ 63) && decide (n ≠ 31)) := by
  rw [qMask, BitVec.getLsbD_and, BitVec.getLsbD_not, maskWord_getLsbD h]
  simp [h, Bool.and_assoc]

/-- The low `w` bits of the masked seed leave their top bit free when it is one of the two cleared ones. -/
theorem qMask_low_lt (s : Block) {w : Nat} (h : w = 32 ∨ w = 64) :
    2 * ((qMask s).extractLsb' 0 w).toNat < 2 ^ w := by
  rw [← BitVec.msb_eq_false_iff_two_mul_lt, BitVec.msb_eq_getLsbD_last, BitVec.getLsbD_extractLsb', Nat.zero_add,
    qMask_getLsbD s (by omega)]
  obtain rfl | rfl := h <;> simp

/-! ## Counting in the low bits -/

/-- Counting in the low `w` bits of a number, when they do not wrap, is counting in the whole number. -/
theorem high_append_low_add {h w : Nat} (c : BitVec (h + w)) {j : Nat} (fits : (c.extractLsb' 0 w).toNat + j < 2 ^ w) :
    c.extractLsb' w h ++ (c.extractLsb' 0 w + BitVec.ofNat w j) = c + BitVec.ofNat (h + w) j := by
  have split : c.extractLsb' w h ++ c.extractLsb' 0 w = c := by
    rw [BitVec.extractLsb'_append_extractLsb'_eq_extractLsb' (Nat.zero_add w).symm, BitVec.extractLsb'_eq_self]
  have hj : (BitVec.ofNat w j).toNat = j := Nat.mod_eq_of_lt (by omega)
  have hlow : (c.extractLsb' 0 w + BitVec.ofNat w j).toNat = (c.extractLsb' 0 w).toNat + j := by
    rw [BitVec.toNat_add_of_lt (by rw [hj]; exact fits), hj]
  have hsum : (c.extractLsb' w h ++ (c.extractLsb' 0 w + BitVec.ofNat w j)).toNat = c.toNat + j := by
    rw [append_toNat_add, hlow, ← Nat.add_assoc, ← append_toNat_add, split]
  apply BitVec.eq_of_toNat_eq
  rw [BitVec.toNat_add, BitVec.toNat_ofNat, Nat.add_mod_mod, ← hsum, Nat.mod_eq_of_lt (BitVec.isLt _)]

/-- The low word of counter block `j`, as long as it does not wrap (43_siv_ctr R141). -/
theorem counterBlock_low {c : Block} {j : Nat} (fits : (c.extractLsb' 0 32).toNat + j < 2 ^ 32) :
    ((counterBlock c j).extractLsb' 0 32).toNat = (c.extractLsb' 0 32).toNat + j := by
  have hj : (BitVec.ofNat 32 j).toNat = j := Nat.mod_eq_of_lt (by omega)
  rw [counterBlock_eq, BitVec.extractLsb'_append_eq_right, BitVec.toNat_add_of_lt (by rw [hj]; exact fits), hj]

/-- Until the low word wraps, counter block `j` is the first one plus `j` (43_siv_ctr R144). -/
theorem counterBlock_eq_add {c : Block} {j : Nat} (fits : (c.extractLsb' 0 32).toNat + j < 2 ^ 32) :
    counterBlock c j = c + BitVec.ofNat 128 j := by
  rw [counterBlock_eq]
  exact high_append_low_add (h := 96) (w := 32) c fits

/-- A message the core can hold has at most 2^24 blocks (00_scope R6, 43_siv_ctr R144). -/
theorem bufCap_blocks_le (cfg : Config) : cfg.bufCap / 16 ≤ 2 ^ 24 := by
  have hcode := cfg.capCode.isLt
  rw [Config.bufCap]
  omega

end Sys2Proof.Machine

/-! PROOFS. The statements about 43_siv_ctr. -/

namespace Sys2Proof.Claims

open Sys2Proof.Machine

/-- Settles O42: the mask frees the top bit of the low word and of the low double word, and 2^24 blocks do not fill the
room it leaves. -/
theorem counterNeverWraps : Obligations.CounterNeverWraps := by
  intro cfg seed
  have blocks := bufCap_blocks_le cfg
  have low32 := qMask_low_lt seed (w := 32) (.inl rfl)
  have low64 := qMask_low_lt seed (w := 64) (.inr rfl)
  refine ⟨blocks, by omega, fun j hj => ?_⟩
  have fits32 : ((qMask seed).extractLsb' 0 32).toNat + j < 2 ^ 32 := by omega
  have fits64 : ((qMask seed).extractLsb' 0 64).toNat + j < 2 ^ 64 := by omega
  have whole := counterBlock_eq_add fits32
  exact ⟨counterBlock_low fits32, by omega, counterBlock_eq _ j,
    whole.trans (high_append_low_add (h := 64) (w := 64) (qMask seed) fits64).symm, whole⟩

/-- Settles O40: byte `16*j + i` of the keystream is byte `i` of `E(C_j)`. -/
theorem sivCtrXorsTheKeystream : Obligations.SivCtrXorsTheKeystream := by
  refine fun ek seed data => ⟨sivCtr_length ek seed data, fun j i hi hlt => ?_⟩
  have block := keystream_block ek (qMask seed) ((data.length + 15) / 16) j i (by omega) hi
  rw [counterBlock_eq] at block
  rw [sivCtr, xorBytes, List.getElem?_zipWith, block, List.getElem?_eq_getElem hlt, List.getD_eq_getElem _ _ hlt]

/-- Settles O41: both runs xor with the same keystream, since it depends on the data's length only. -/
theorem sivCtrIsItsOwnInverse : Obligations.SivCtrIsItsOwnInverse := by
  intro ek seed data
  rw [sivCtr, sivCtr_length, sivCtr]
  exact xorBytes_cancel data _ (by rw [keystream_length]; omega)

/-- Settles O39: the two bits of the mask's word are cleared, the others stand. -/
theorem qMaskClearsTwoBits : Obligations.QMaskClearsTwoBits := fun s _ h => qMask_getLsbD s h

end Sys2Proof.Claims

/-! PROOFS. The statement about 44_comparator. -/

namespace Sys2Proof.Claims

open Sys2Proof.Machine

/-- Settles O43: the accumulated or is zero exactly when every byte of `a xor b` is. -/
theorem comparatorIsEquality : Obligations.ComparatorIsEquality := ctEq_iff

end Sys2Proof.Claims

/-! PROOFS. What the key and system commands read and write: the STATUS word (10_state R33), a key word and its valid bit
(45_commands_key R162), and the staged key as one number that KEYINIT cuts into halves (45_commands_key R163). -/

namespace Sys2Proof.Machine

/-! ## STATUS -/

/-- The fields of STATUS, from bit 0 up, in the codes of the model (10_state R33). -/
theorem statusWord_fields (s : State) :
    (statusWord s).extractLsb' 0 2 = s.phase.code ∧
    (statusWord s).extractLsb' 2 1 = BitVec.ofBool (keyValid s) ∧
    (statusWord s).extractLsb' 3 2 = s.ksel.code ∧
    (statusWord s).extractLsb' 5 1 = BitVec.ofBool s.adOpen ∧
    (statusWord s).extractLsb' 6 1 = BitVec.ofBool s.msgClosed ∧
    (statusWord s).extractLsb' 7 1 = 0#1 ∧
    (statusWord s).extractLsb' 8 4 = s.err.code ∧
    (statusWord s).extractLsb' 12 4 = s.kwValid ∧
    (statusWord s).extractLsb' 16 16 = 0#16 ∧
    (statusWord s).extractLsb' 32 32 = BitVec.ofNat 32 s.ilen ∧
    (statusWord s).extractLsb' 64 32 = BitVec.ofNat 32 s.olen ∧
    (statusWord s).extractLsb' 96 32 = 0#32 := by
  unfold statusWord
  refine ⟨?_, ?_, ?_, ?_, ?_, ?_, ?_, ?_, ?_, ?_, ?_, ?top⟩
  case top =>
    repeat rw [BitVec.extractLsb'_append_eq_of_le (by decide)]
    exact BitVec.extractLsb'_eq_self
  all_goals
    repeat rw [BitVec.extractLsb'_append_eq_of_le (by decide)]
    exact BitVec.extractLsb'_append_eq_right

/-- A field of one bit is that bit. -/
theorem getLsbD_of_field {n lo : Nat} {w : BitVec n} {b : Bool} (h : w.extractLsb' lo 1 = BitVec.ofBool b) :
    w.getLsbD lo = b := by
  have bit := congrArg (fun v => v.getLsbD 0) h
  simpa using bit

/-! ## The key buffer -/

/-- A valid bit after a key word is marked written (45_commands_key R162). -/
theorem kwValid_mark_getLsbD (v : BitVec 4) (idx j : Fin 4) :
    (v ||| 1#4 <<< idx.val).getLsbD j.val = (decide (j = idx) || v.getLsbD j.val) := by
  rw [BitVec.getLsbD_or, ← BitVec.twoPow_eq, BitVec.getLsbD_twoPow, Bool.or_comm]
  simp [Fin.ext_iff, eq_comm]

/-- No word the length needs is missing (45_commands_key R163). -/
theorem keyAbsent_eq_false_iff (s : State) (klen : Nat) :
    keyAbsent s klen = false ↔ ∀ i, i < klen / 16 → s.kwValid.getLsbD i = true := by
  simp [keyAbsent]

/-! ## Bytes of joined and cut bit vectors -/

theorem topBytes_append (m n : Nat) {u v : Nat} (a : BitVec u) (b : BitVec v) (hu : u = 8 * m) (hv : 8 * n ≤ v) :
    topBytes (m + n) (a ++ b) = topBytes m a ++ topBytes n b := by
  apply List.ext_getElem
  · simp
  · intro i hi _
    rw [topBytes_length] at hi
    rw [topBytes_getElem]
    by_cases h : i < m
    · rw [List.getElem_append_left (by simpa using h), topBytes_getElem,
        BitVec.extractLsb'_append_eq_of_le (by omega)]
      congr 1
      omega
    · rw [List.getElem_append_right (by simpa using h), topBytes_getElem,
        BitVec.extractLsb'_append_eq_of_add_le (by omega), topBytes_length]
      congr 1
      omega

/-- A slice of a number's bytes is a field of the number. -/
theorem slice_topBytes {n a b : Nat} (v : BitVec (8 * n)) (h : b ≤ n) :
    slice (topBytes n v) a b = topBytes (b - a) (v.extractLsb' (8 * (n - b)) (8 * (b - a))) := by
  apply List.ext_getElem
  · rw [slice_length, topBytes_length, topBytes_length, Nat.min_eq_left h]
  · intro i _ hi
    rw [topBytes_length] at hi
    simp only [slice, List.getElem_drop, List.getElem_take, topBytes_getElem]
    apply BitVec.eq_of_getLsbD_eq
    intro k hk
    rw [BitVec.getLsbD_extractLsb', BitVec.getLsbD_extractLsb', BitVec.getLsbD_extractLsb',
      decide_eq_true hk, decide_eq_true (by omega : 8 * (b - a) - 8 * (i + 1) + k < 8 * (b - a)), Bool.true_and,
      Bool.true_and, Bool.true_and]
    congr 1
    omega

/-- Left-aligning all bytes of a number puts zeros below it (10_state R24). -/
theorem packBytes_topBytes_append (n z : Nat) (v : BitVec (8 * n)) :
    packBytes (8 * n + z) (topBytes n v) = v ++ 0#z := by
  apply BitVec.eq_of_toNat_eq
  rw [packBytes_toNat _ _ (by rw [topBytes_length]; omega), natOfBytes_topBytes n v (Nat.le_refl _), append_toNat_add]
  simp

/-! ## The staged key -/

/-- The key buffer as one number of 64 bytes, `kw[0]` first (10_state R23). -/
def stagedNumber (s : State) : BitVec (8 * 64) := s.kw[0] ++ s.kw[1] ++ s.kw[2] ++ s.kw[3]

theorem stagedBytes_eq (s : State) : stagedBytes s = topBytes 64 (stagedNumber s) := by
  rw [stagedNumber, topBytes_append 48 16 (s.kw[0] ++ s.kw[1] ++ s.kw[2]) s.kw[3] rfl (by decide),
    topBytes_append 32 16 (s.kw[0] ++ s.kw[1]) s.kw[2] rfl (by decide),
    topBytes_append 16 16 s.kw[0] s.kw[1] rfl (by decide), stagedBytes]

/-- The words of the staged key, and the two halves of `kw[1]` that a 48-byte key separates (20_memory R57). -/
theorem stagedNumber_fields (s : State) :
    (stagedNumber s).extractLsb' 384 128 = s.kw[0] ∧
    (stagedNumber s).extractLsb' 256 128 = s.kw[1] ∧
    (stagedNumber s).extractLsb' 320 64 = s.kw[1].extractLsb' 64 64 ∧
    (stagedNumber s).extractLsb' 256 64 = s.kw[1].extractLsb' 0 64 ∧
    (stagedNumber s).extractLsb' 128 128 = s.kw[2] ∧
    (stagedNumber s).extractLsb' 0 128 = s.kw[3] := by
  unfold stagedNumber
  refine ⟨?first, ?_, ?high, ?low, ?_, ?_⟩
  case first =>
    repeat rw [BitVec.extractLsb'_append_eq_of_le (by decide)]
    exact BitVec.extractLsb'_eq_self
  case high | low =>
    repeat rw [BitVec.extractLsb'_append_eq_of_le (by decide)]
    exact BitVec.extractLsb'_append_eq_of_add_le (by decide)
  all_goals
    repeat rw [BitVec.extractLsb'_append_eq_of_le (by decide)]
    exact BitVec.extractLsb'_append_eq_right

theorem slice_slice (m : ByteString) (a : Nat) {b k : Nat} (h : b ≤ k) : slice (slice m 0 k) a b = slice m a b := by
  rw [slice, slice, slice, List.drop_zero, List.take_take, Nat.min_eq_left h]

theorem macHalf_eq (s : State) (klen : Nat) : macHalf s klen = slice (stagedBytes s) 0 (klen / 2) :=
  slice_slice _ 0 (Nat.div_le_self klen 2)

theorem ctrHalf_eq (s : State) (klen : Nat) : ctrHalf s klen = slice (stagedBytes s) (klen / 2) klen :=
  slice_slice _ (klen / 2) (Nat.le_refl klen)

/-- A part of the staged key, left-aligned in a key register, with zeros below it (10_state R24). -/
theorem packBytes_slice_stagedBytes (s : State) {a b : Nat} (z : Nat) (h : b ≤ 64) :
    packBytes (8 * (b - a) + z) (slice (stagedBytes s) a b) =
      (stagedNumber s).extractLsb' (8 * (64 - b)) (8 * (b - a)) ++ 0#z := by
  rw [stagedBytes_eq, slice_topBytes _ h, packBytes_topBytes_append]

/-- The key registers of a 32-byte key: one word in each (20_memory R57). -/
theorem halves_of_32 (s : State) :
    packBytes 256 (macHalf s 32) = s.kw[0] ++ 0#128 ∧ packBytes 256 (ctrHalf s 32) = s.kw[1] ++ 0#128 := by
  obtain ⟨w0, w1, -, -, -, -⟩ := stagedNumber_fields s
  rw [← w0, ← w1, macHalf_eq, ctrHalf_eq]
  exact ⟨packBytes_slice_stagedBytes s (a := 0) (b := 16) 128 (by decide),
    packBytes_slice_stagedBytes s (a := 16) (b := 32) 128 (by decide)⟩

/-- The key registers of a 48-byte key: the second word is cut in two (20_memory R57). -/
theorem halves_of_48 (s : State) :
    packBytes 256 (macHalf s 48) = s.kw[0] ++ s.kw[1].extractLsb' 64 64 ++ 0#64 ∧
      packBytes 256 (ctrHalf s 48) = s.kw[1].extractLsb' 0 64 ++ s.kw[2] ++ 0#64 := by
  obtain ⟨w0, -, w1high, w1low, w2, -⟩ := stagedNumber_fields s
  have mac : s.kw[0] ++ s.kw[1].extractLsb' 64 64 = (stagedNumber s).extractLsb' 320 192 := by
    rw [← w0, ← w1high]
    exact BitVec.extractLsb'_append_extractLsb'_eq_extractLsb' rfl
  have ctr : s.kw[1].extractLsb' 0 64 ++ s.kw[2] = (stagedNumber s).extractLsb' 128 192 := by
    rw [← w1low, ← w2]
    exact BitVec.extractLsb'_append_extractLsb'_eq_extractLsb' rfl
  rw [mac, ctr, macHalf_eq, ctrHalf_eq]
  exact ⟨packBytes_slice_stagedBytes s (a := 0) (b := 24) 64 (by decide),
    packBytes_slice_stagedBytes s (a := 24) (b := 48) 64 (by decide)⟩

/-- The key registers of a 64-byte key: two words in each, and no zeros below (20_memory R57). -/
theorem halves_of_64 (s : State) :
    packBytes 256 (macHalf s 64) = s.kw[0] ++ s.kw[1] ∧ packBytes 256 (ctrHalf s 64) = s.kw[2] ++ s.kw[3] := by
  obtain ⟨w0, w1, -, -, w2, w3⟩ := stagedNumber_fields s
  have mac : s.kw[0] ++ s.kw[1] = (stagedNumber s).extractLsb' 256 256 := by
    rw [← w0, ← w1]
    exact BitVec.extractLsb'_append_extractLsb'_eq_extractLsb' rfl
  have ctr : s.kw[2] ++ s.kw[3] = (stagedNumber s).extractLsb' 0 256 := by
    rw [← w2, ← w3]
    exact BitVec.extractLsb'_append_extractLsb'_eq_extractLsb' rfl
  rw [mac, ctr, macHalf_eq, ctrHalf_eq]
  exact ⟨(packBytes_slice_stagedBytes s (a := 0) (b := 32) 0 (by decide)).trans (BitVec.append_zero_width _ _),
    (packBytes_slice_stagedBytes s (a := 32) (b := 64) 0 (by decide)).trans (BitVec.append_zero_width _ _)⟩

/-- The MAC half reads back from its key register (10_state R24). -/
theorem topBytes_macHalf (s : State) {klen : Nat} (h : klen ≤ 64) :
    topBytes (klen / 2) (packBytes 256 (macHalf s klen)) = macHalf s klen := by
  have hlen : (macHalf s klen).length = klen / 2 := by
    rw [macHalf_eq, slice_length, stagedBytes_length]
    omega
  have read := topBytes_packBytes_self 256 (macHalf s klen) (by omega)
  rwa [hlen] at read

end Sys2Proof.Machine

/-! PROOFS. The statements about 45_commands_key. -/

namespace Sys2Proof.Claims

open Sys2Proof.Machine

/-- STATUS is the table of 10_state R33. -/
theorem statusFields_statusWord (s : State) : StatusFields s (statusWord s) := by
  obtain ⟨phase, keyValid, ksel, adOpen, msgClosed, reserved7, err, kwValid, reserved16, ilen, olen, reserved96⟩ :=
    statusWord_fields s
  exact {
    phase := phase.trans (by cases s.phase <;> rfl)
    keyValid := (getLsbD_of_field keyValid).trans (by cases h : s.ksel <;> simp [Machine.keyValid, h])
    ksel := ksel.trans (by cases s.ksel <;> rfl)
    adOpen := getLsbD_of_field adOpen
    msgClosed := getLsbD_of_field msgClosed
    reserved7 := getLsbD_of_field (b := false) reserved7
    err := err.trans (by cases s.err <;> rfl)
    kwValid, reserved16, ilen, olen, reserved96 }

/-- Settles O23: STATRD is always in its OK case. -/
theorem statrdReturnsStatus : Obligations.StatrdReturnsStatus := fun s =>
  ⟨_, exec_ok ⟨rfl, rfl⟩, statusFields_statusWord s⟩

/-- Settles O24: the update of the key buffer, word by word and bit by bit. -/
theorem keywrWritesOneKeyWord : Obligations.KeywrWritesOneKeyWord := by
  intro idx data s hp
  refine ⟨_, exec_ok ⟨hp, rfl, rfl⟩, ⟨rfl, rfl⟩, fun j => ?_, kwValid_mark_getLsbD s.kwValid idx, hp,
    ⟨rfl, rfl, rfl, rfl, rfl⟩, ⟨rfl, rfl, rfl⟩, rfl, rfl, fun _ => rfl, fun _ => rfl⟩
  have word := Vector.getElem_set (xs := s.kw) (x := data) idx.isLt j.isLt
  simpa [Fin.ext_iff, eq_comm] using word

/-- Settles O25: a supported length with its words written is KEYINIT's OK case, and the halves it installs are fields
of the staged key. -/
theorem keyinitInstallsTheKey : Obligations.KeyinitInstallsTheKey := by
  intro klen s hp hlen hwords
  have lengths : klen.val = 32 ∨ klen.val = 48 ∨ klen.val = 64 := by simpa [Fin.ext_iff] using hlen
  have supported := (supportedKlen_iff klen.val).2 lengths
  have present := (keyAbsent_eq_false_iff s klen.val).2 hwords
  have mac := topBytes_macHalf s (show klen.val ≤ 64 by omega)
  refine ⟨_, exec_ok ⟨hp, supported, present, rfl, rfl⟩, ⟨rfl, rfl⟩, ?_, ?_, ?_, ?_, rfl,
    ⟨fun j => by fin_cases j <;> rfl, rfl⟩, rfl, rfl, ⟨rfl, rfl, rfl⟩, rfl, fun _ => rfl, fun _ => rfl⟩
  · rintro rfl
    exact ⟨rfl, halves_of_32 s⟩
  · rintro rfl
    exact ⟨rfl, halves_of_48 s⟩
  · rintro rfl
    exact ⟨rfl, halves_of_64 s⟩
  · rw [State.emit_macKey, State.installKey_macKey, mac]
    rfl

/-- Settles O11: the step's own case for a record that decodes. -/
theorem stepRunsTheDecodedCommand : Obligations.StepRunsTheDecodedCommand := by
  intro s c rest i hin hd
  rw [step_command hin, hd]
  rfl

/-- Settles O21: NOP is always in its OK case, which leaves the state. -/
theorem nopOnlyResponds : Obligations.NopOnlyResponds := fun _ => exec_ok ⟨rfl, rfl⟩

/-- Settles O22: ZEROIZE is always in its OK case, which leaves only the events and responses. -/
theorem zeroizeLeavesTheResetState : Obligations.ZeroizeLeavesTheResetState := fun s =>
  exec_ok (i := .zeroize) (u := s.dropInstance) ⟨rfl, rfl⟩

end Sys2Proof.Claims

/-! PROOFS. What the statements about 46_commands_transaction need: the phase table (R176), the last beat of a component
(R171), the bytes of a beat (R172) and of a result block (R175), the parts of an envelope (R173, R174), and the
invariant along a run. -/

namespace Sys2Proof.Machine

/-- What a final beat adds to the chain state (41_cmac R116). -/
def finalBlock (k1 k2 w : Block) (nbytes : Fin 17) : Block :=
  if h : nbytes.val = 16 then w ^^^ k1
  else pad (topBytes nbytes.val w) (by rw [topBytes_length]; omega) ^^^ k2

theorem cmacFinish_eq_finalBlock (ek : Block → Block) (k1 k2 x w : Block) (nbytes : Fin 17) :
    cmacFinish ek k1 k2 x w nbytes = ek (x ^^^ finalBlock k1 k2 w nbytes) := by
  by_cases full : nbytes.val = 16
  · rw [cmacFinish_full ek k1 k2 x w full, finalBlock, dif_pos full]
  · rw [cmacFinish_partial ek k1 k2 x w rfl (by rw [topBytes_length]; omega), finalBlock, dif_neg full]

/-- A full last beat carries `K1` (41_cmac R116). -/
theorem finalBlock_full (k1 k2 w : Block) : finalBlock k1 k2 w 16 = w ^^^ k1 := dif_pos rfl

/-- Without `K2`, a shorter last beat is its valid bytes with 10* padding (41_cmac R110). -/
theorem topBytes_finalBlock_partial (k1 k2 w : Block) {nbytes : Fin 17} (short : nbytes.val ≠ 16) :
    topBytes 16 (finalBlock k1 k2 w nbytes ^^^ k2) =
      topBytes nbytes.val w ++ [0x80#8] ++ zeros (15 - nbytes.val) := by
  rw [finalBlock, dif_neg short, BitVec.xor_assoc, BitVec.xor_self, BitVec.xor_zero, topBytes_pad, topBytes_length]

/-- Byte `j` of a block's first `n` bytes (20_memory R53). -/
theorem topBytes_getElem?_block (w : Block) {n j : Nat} (h : j < n) :
    (topBytes n w)[j]? = some (w.extractLsb' (120 - 8 * j) 8) := by
  rw [List.getElem?_eq_getElem (by simpa using h), topBytes_getElem, show 128 - 8 * (j + 1) = 120 - 8 * j by omega]

/-- Byte `j` of a result block is the result's byte there, zero beyond the result (46_commands_transaction R175). -/
theorem resultBlock_byte (buf : ByteString) (blk : Nat) {j : Nat} (h : j < 16) :
    (resultBlock buf blk).extractLsb' (120 - 8 * j) 8 = (memByte buf (16 * blk + j)).getD 0 := by
  have hlen : (slice buf (16 * blk) (16 * blk + 16)).length = min 16 (buf.length - 16 * blk) := by
    rw [slice_length]
    omega
  apply Option.some.inj
  rw [← topBytes_getElem?_block _ h, topBytes_resultBlock]
  by_cases inside : 16 * blk + j < buf.length
  · rw [List.getElem?_append_left (by omega), slice, List.getElem?_drop, List.getElem?_take_of_lt (by omega), memByte,
      List.getElem?_eq_getElem inside]
    rfl
  · rw [List.getElem?_append_right (by omega), memByte_beyond _ _ (by omega), List.getElem?_replicate_of_lt (by omega)]
    rfl

/-- The envelope of the collected plaintext (46_commands_transaction R173). -/
theorem encryptOutput_eq (cfg : Config) (s : State) :
    encryptOutput cfg s =
      topBytes 16 (sivOf cfg s s.ibuf) ++ sivCtr (ctrE cfg s) (sivOf cfg s s.ibuf) s.ibuf := by
  rw [encryptOutput, memRead_all, mkEnvelope]

/-- The plaintext candidate of the collected envelope (46_commands_transaction R174). -/
theorem candidate_eq (cfg : Config) (s : State) :
    candidate cfg s = sivCtr (ctrE cfg s) (packBytes 128 (s.ibuf.take 16)) (s.ibuf.drop 16) := by
  rw [candidate, envelopeSiv_eq, envelopeCt_eq]

/-- The two parts of an envelope (20_memory R56). -/
theorem envelope_parts (siv : Block) (ct : ByteString) :
    packBytes 128 ((topBytes 16 siv ++ ct).take 16) = siv ∧ (topBytes 16 siv ++ ct).drop 16 = ct := by
  rw [List.take_left' (topBytes_length 16 siv), List.drop_left' (topBytes_length 16 siv)]
  exact ⟨packBytes_topBytes_block siv, rfl⟩

end Sys2Proof.Machine

namespace Sys2Proof.Safety

open Sys2Proof.Machine

/-- With the subkeys of the key cached, the SIV is the document's CMAC of `T` (42_s2v R132). -/
theorem Inv.sivOf_eq {cfg : Config} {s : State} (h : Inv cfg s) (keyed : s.phase ≠ .unkeyed) (p : ByteString) :
    sivOf cfg s p = cmac (macE cfg s) (s2vLast s.d p) := by
  rw [cmac, ← h.subkeys keyed]
  rfl

/-- Every step of a run keeps the invariant. -/
theorem Inv.run {s t : State} {n : Nat} (h : Inv Config.chip s) (hrun : run n s = .next t) : Inv Config.chip t := by
  induction n generalizing s with
  | zero => cases hrun; exact h
  | succ n ih =>
    cases hs : Machine.step s with
    | next u =>
      rw [run_succ hs] at hrun
      exact ih (h.step hs) hrun
    | fault f => cases f
    | refused r => rw [run_step, hs] at hrun; cases hrun

end Sys2Proof.Safety

namespace Sys2Proof.Claims

open Sys2Proof.Machine

/-- After an OK response the phase is the table's entry (46_commands_transaction R176). -/
theorem phaseTable_of_okCase {i : Instr} {s u : State} {w : Block} (h : OkCase i s u w) :
    phaseTable i s.phase = some u.phase := by
  cases i with
  | nop => obtain ⟨rfl, -⟩ := h; rfl
  | zeroize => obtain ⟨rfl, -⟩ := h; rfl
  | statrd => obtain ⟨rfl, -⟩ := h; rfl
  | keywr idx data => obtain ⟨hp, rfl, -⟩ := h; simp [phaseTable, hp]
  | keyinit klen => obtain ⟨hp, -, -, rfl, -⟩ := h; simp [phaseTable, hp]
  | begin => obtain ⟨hp, rfl, -⟩ := h; simp [phaseTable, hp]
  | adpush nbytes last data => obtain ⟨hp, -, rfl, -⟩ := h; cases last <;> simp [phaseTable, hp]
  | msgpush nbytes data => obtain ⟨hp, -, -, rfl, -⟩ := h; simp [phaseTable, hp]
  | encrypt => obtain ⟨hp, -, -, rfl, -⟩ := h; simp [phaseTable, hp]
  | decrypt => obtain ⟨hp, -, -, -, rfl, -⟩ := h; simp [phaseTable, hp]
  | outrd blk => obtain ⟨hp, -, rfl, -⟩ := h; simp [phaseTable, hp]

/-- A command whose entry is `P` fails with E_PROTO (46_commands_transaction R176). -/
theorem exec_of_phaseTable_none {i : Instr} {s : State} (h : phaseTable i s.phase = none) :
    exec i s = fail .proto s := by
  cases i with
  | nop => cases h
  | zeroize => cases h
  | statrd => cases h
  | _ => exact requirePhase_illegal (by simpa [phaseTable] using h)

end Sys2Proof.Claims

/-! PROOFS. The statements about 46_commands_transaction. -/

namespace Sys2Proof.Claims

open Sys2Proof.Machine Sys2Proof.Safety

/-- Settles O17: the phase check answers for the entries `P`; where it passes, the update of the command's OK case or
the abort gives the phase. -/
theorem phaseFollowsTheTable : Obligations.PhaseFollowsTheTable := by
  intro s c rest hin
  rcases step_command_cases hin with ⟨i, u, w, hd, hok, e⟩ | ⟨code, failed, e⟩
  · have entry := phaseTable_of_okCase hok
    rw [State.withInbox_phase] at entry
    refine ⟨_, ⟨.ok, w⟩, e, by rw [State.emit_rsps, hok.frame.1, State.withInbox_rsps], fun j hj => ?_,
      fun bad => absurd rfl bad⟩
    obtain rfl : i = j := Except.ok.inj (hd.symm.trans hj)
    exact ⟨fun illegal => (nomatch illegal.symm.trans entry), fun _ => entry⟩
  · refine ⟨_, ⟨code, 0⟩, e, rfl, fun i hd => ⟨fun illegal => ?_, fun ok => absurd ok failed⟩, fun _ => rfl⟩
    have proto : step s = fail .proto (s.withInbox rest) := by
      rw [step_command hin, hd]
      exact exec_of_phaseTable_none illegal
    rw [e] at proto
    exact congrArg State.err (Host.Outcome.next.inj proto)

/-- Settles O26: BEGIN's OK case; the CMAC of the zero block is one application of the cipher to `k1`. -/
theorem beginOpensATransaction : Obligations.BeginOpensATransaction := by
  intro s hp
  refine ⟨_, exec_ok ⟨hp, rfl, rfl⟩, ⟨rfl, rfl⟩, s2vInitWith_eq _ s.k1 s.k2, fun hi => ?_, rfl, rfl, rfl, rfl, rfl, rfl,
    rfl, ⟨rfl, rfl, rfl, rfl, rfl⟩, rfl, rfl⟩
  rw [cmac, ← hi.subkeys (keyed_of_idle hp)]
  rfl

/-- Settles O27: the OK case of a non-final beat, which writes `cmac_x` and `ad_open` only. -/
theorem adpushAbsorbsANonFinalBeat : Obligations.AdpushAbsorbsANonFinalBeat := fun _ _ hp =>
  ⟨_, exec_ok ⟨hp, rfl, rfl, rfl⟩, ⟨rfl, rfl⟩, rfl, rfl, rfl, hp, ⟨rfl, rfl, rfl, rfl, rfl⟩, ⟨rfl, rfl⟩, rfl, rfl,
    fun _ => rfl, fun _ => rfl⟩

/-- Settles O28: the OK case of a final beat; its block carries `K1` when the beat is full, the padding and `K2`
otherwise. -/
theorem adpushFinishesTheComponent : Obligations.AdpushFinishesTheComponent := by
  intro nbytes w s hp nonempty
  have legal : (true && nbytes == 0 && s.adOpen) = false := by simpa using nonempty
  refine ⟨_, finalBlock s.k1 s.k2 w nbytes, exec_ok ⟨hp, legal, rfl, rfl⟩, ⟨rfl, rfl⟩, ?_, fun short => ?_, ?_, rfl,
    rfl, hp, ⟨rfl, rfl, rfl, rfl, rfl⟩, ⟨rfl, rfl⟩, rfl, rfl, fun _ => rfl, fun _ => rfl⟩
  · rintro rfl
    exact finalBlock_full s.k1 s.k2 w
  · exact topBytes_finalBlock_partial s.k1 s.k2 w fun full => short (Fin.ext full)
  · exact congrArg (dbl s.d ^^^ ·) (cmacFinish_eq_finalBlock (macE Config.chip s) s.k1 s.k2 s.cmacX w nbytes)

/-- Settles O29: MSGPUSH's OK case appends the beat's bytes: addresses below `ilen` are in the old part, those at and
beyond the new length hold nothing, before and after. -/
theorem msgpushAppendsItsBytes : Obligations.MsgpushAppendsItsBytes := by
  intro nbytes w s _ hp opened room
  have stored : (s.appendMessage (beatBytes nbytes w) (decide (nbytes.val < 16))).ibuf =
      s.ibuf ++ topBytes nbytes.val w := memWrite_append _ _
  have grown : (s.ibuf ++ topBytes nbytes.val w).length = s.ibuf.length + nbytes.val := by simp
  refine ⟨_, exec_ok ⟨hp, opened, room, rfl, rfl⟩, ⟨rfl, rfl⟩, ?_, fun j hj => ?_, fun addr outside => ?_, ?_, hp,
    ⟨rfl, rfl, rfl, rfl, rfl⟩, ⟨rfl, rfl⟩, ⟨rfl, rfl, rfl⟩, rfl, fun _ => rfl⟩
  · rw [State.ilen_eq, State.emit_ibuf, stored, grown]
  · rw [State.emit_ibuf, stored, memByte_append_right, topBytes_getElem?_block w hj]
  · rw [State.emit_ibuf, stored]
    rw [State.ilen_eq] at outside
    rcases outside with before | beyond
    · exact memByte_append_left _ _ _ before
    · rw [memByte_beyond _ _ (by omega), memByte_beyond _ _ (by omega)]
  · rw [State.emit_msgClosed, State.appendMessage_msgClosed, opened, Bool.false_or]

/-- Settles O30: ENCRYPT's OK case; the envelope it writes falls into its two parts. -/
theorem encryptLeavesTheEnvelope : Obligations.EncryptLeavesTheEnvelope := by
  intro s hp closed room
  obtain ⟨tag, ct⟩ := envelope_parts (sivOf Config.chip s s.ibuf)
    (sivCtr (ctrE Config.chip s) (sivOf Config.chip s s.ibuf) s.ibuf)
  have keyed : s.phase ≠ .unkeyed := by simp [hp]
  refine ⟨_, sivOf Config.chip s s.ibuf, exec_ok ⟨hp, closed, room, congrArg s.finish (encryptOutput_eq _ s).symm, rfl⟩,
    ⟨rfl, rfl⟩, rfl, fun hi => hi.sivOf_eq keyed s.ibuf, ?_, tag, ct, rfl, rfl, rfl, closed, rfl, rfl,
    ⟨rfl, rfl, rfl, rfl, rfl⟩, ⟨rfl, rfl⟩, rfl⟩
  simp

/-- Settles O31: the comparison passes, so DECRYPT is in its OK case and writes the candidate. -/
theorem decryptLeavesTheVerifiedPlaintext : Obligations.DecryptLeavesTheVerifiedPlaintext := by
  rintro s siv pt hp closed long rfl hpt verified
  have hc : candidate Config.chip s = pt := by rw [candidate_eq, hpt]
  have passes : ctEq (sivOf Config.chip s (candidate Config.chip s)) (envelopeSiv s.ibuf) = true := by
    rw [ctEq_iff, hc, envelopeSiv_eq, ← verified]
    rfl
  refine ⟨_, exec_ok ⟨hp, closed, long, passes, congrArg s.finish hc.symm, rfl⟩, ⟨rfl, rfl⟩, rfl, ?_, rfl, rfl, rfl,
    closed, rfl, rfl, ⟨rfl, rfl, rfl, rfl, rfl⟩, ⟨rfl, rfl⟩, rfl⟩
  simp [hpt]

/-- Settles O33: OUTRD's OK case, and the bytes of a result block. -/
theorem outrdReturnsTheBlock : Obligations.OutrdReturnsTheBlock := fun blk s hp inside =>
  ⟨_, exec_ok ⟨hp, inside, rfl, rfl⟩, fun _ h => resultBlock_byte s.obuf blk.val h⟩

/-- Settles O53: the transaction is a run of OK responses, and ENCRYPT finds the chain value of the components. -/
theorem encryptTransactionIsSivEncrypt : Obligations.EncryptTransactionIsSivEncrypt := by
  intro s ads p hi hp room
  exact ⟨_, _, (quietRun_encryptSeq ads hi hp room).runs, by simp [oks], rfl, rfl, rfl, by simp, rfl, rfl, rfl, rfl,
    rfl⟩

/-- Settles O54: an envelope that is long enough and verifies makes the transaction a run of OK responses; any other
ends it in the abort. -/
theorem decryptTransactionIsSivDecrypt : Obligations.DecryptTransactionIsSivDecrypt := by
  intro s ads v hi hp room n siv pt
  by_cases failed : v.length < 16 ∨ s2v (macE Config.chip s) ads pt ≠ siv
  · have keyed : s.ksel ≠ .none := fun h => keyed_of_idle hp (hi.unkeyed_iff.2 h)
    refine ⟨_, runs_decryptSeq_failed ads hi hp room rfl failed rfl, fun short => ?_, fun long verified => ?_,
      fun long _ => ⟨?_, rfl, if_neg keyed⟩⟩
    · rw [if_pos short]
    · exact absurd verified (failed.resolve_left (Nat.not_lt.2 long))
    · rw [if_neg (Nat.not_lt.2 long)]
  · obtain ⟨long, verified⟩ : 16 ≤ v.length ∧ s2v (macE Config.chip s) ads pt = siv := by simpa using failed
    exact ⟨_, (quietRun_decryptSeq ads hi hp room long rfl verified).runs,
      fun short => absurd long (Nat.not_le.2 short), fun _ _ => ⟨by simp [oks, n], rfl, by simp, rfl⟩,
      fun _ mismatch => absurd verified mismatch⟩

/-- Settles O55: the encryption ends in DONE with the invariant, its result verifies under the same keys, and the
keystream cancels. -/
theorem decryptTransactionInvertsEncrypt : Obligations.DecryptTransactionInvertsEncrypt := by
  intro s ads p t hi hp room hrun
  have hit : Inv Config.chip t := (hi.withInbox _).run hrun
  obtain rfl := Host.Outcome.next.inj (hrun.symm.trans (quietRun_encryptSeq ads hi hp room).runs)
  obtain ⟨tag, ct⟩ := envelope_parts (s2v (macE Config.chip s) ads p)
    (sivCtr (ctrE Config.chip s) (s2v (macE Config.chip s) ads p) p)
  refine ⟨_, (quietRun_decryptSeq ads (pt := p) hit (.inr rfl) ?_ ?_ ?_ tag.symm).runs, by simp [oks], rfl, rfl⟩
  · simpa [Nat.add_comm] using room
  · simp
  · rw [State.finish_obuf, tag, ct]
    exact (sivCtrIsItsOwnInverse _ _ p).symm

end Sys2Proof.Claims

/-! PROOFS. The code a command reports (60_exceptions R211), what a failure leaves (60_exceptions R210), where a result
comes from (60_exceptions R222), and what the host can see of a step (60_exceptions R221). -/

namespace Sys2Proof.Machine

/-! ## The code of a response -/

/-- The result is a response with this code. -/
def Responds (code : RespCode) (r : Result) : Prop := ∃ (u : State) (w : Block), r = .next (u.emit code w)

theorem respond_responds (w : Block) (s : State) : Responds .ok (respond w s) := ⟨s, w, rfl⟩

theorem fail_responds (code : RespCode) (s : State) : Responds code (fail code s) := ⟨s.abort code, 0, rfl⟩

/-- The phase check comes first, and its code is E_PROTO. -/
theorem requirePhase_responds {legal : List Phase} {s : State} {body : Result} {illegal : Prop} [Decidable illegal]
    {code : RespCode} (hl : illegal ↔ s.phase ∉ legal) (h : Responds code body) :
    Responds (if illegal then .proto else code) (requirePhase legal s body) := by
  by_cases hp : s.phase ∈ legal
  · rwa [requirePhase_legal hp, if_neg fun bad => hl.1 bad hp]
  · rw [requirePhase_illegal hp, if_pos (hl.2 hp)]
    exact fail_responds .proto s

/-- A check comes before the checks in its body. -/
theorem raiseIf_responds {bad : Bool} {raised code : RespCode} {s : State} {body : Result} {fails : Prop}
    [Decidable fails] (hf : fails ↔ bad = true) (h : Responds code body) :
    Responds (if fails then raised else code) (raiseIf bad raised s body) := by
  cases bad with
  | false => rwa [raiseIf_false, if_neg fun p => Bool.false_ne_true (hf.1 p)]
  | true =>
    rw [raiseIf_true, if_pos (hf.2 rfl)]
    exact fail_responds raised s

/-- The last response has one code. -/
theorem code_of_last {rs rs' : List Response} {code code' : RespCode} {w w' : Block}
    (h : rs ++ [⟨code, w⟩] = rs' ++ [⟨code', w'⟩]) : code = code' :=
  congrArg Response.rc (List.singleton_inj.1 (List.append_inj_right' h rfl))

/-- A command that gave this non-OK response has failed with the abort. -/
theorem exec_failed {i : Instr} {s t : State} {code : RespCode} (h : exec i s = .next t) (hc : code ≠ .ok)
    (answered : t.rsps = s.rsps ++ [⟨code, 0⟩]) : t = (s.abort code).emit code 0 := by
  rcases exec_next_cases h with ⟨u, w, rfl, -⟩ | ⟨code', -, rfl⟩
  · exact absurd (code_of_last answered).symm hc
  · rw [code_of_last answered]

/-! ## What an OK response leaves in the keys and in the result -/

/-- No command but ZEROIZE and KEYINIT changes the installed key (70_reset_and_hazards R242). -/
theorem OkCase.keysKept {i : Instr} {s u : State} {w : Block} (h : OkCase i s u w) (hz : i ≠ .zeroize)
    (hk : ∀ klen, i ≠ .keyinit klen) : Claims.KeysKept s u := by
  cases i with
  | zeroize => exact absurd rfl hz
  | keyinit klen => exact absurd rfl (hk klen)
  | nop => obtain ⟨rfl, -⟩ := h; exact ⟨rfl, rfl, rfl, rfl, rfl⟩
  | statrd => obtain ⟨rfl, -⟩ := h; exact ⟨rfl, rfl, rfl, rfl, rfl⟩
  | keywr idx data => obtain ⟨-, rfl, -⟩ := h; exact ⟨rfl, rfl, rfl, rfl, rfl⟩
  | begin => obtain ⟨-, rfl, -⟩ := h; exact ⟨rfl, rfl, rfl, rfl, rfl⟩
  | adpush nbytes last data => obtain ⟨-, -, rfl, -⟩ := h; cases last <;> exact ⟨rfl, rfl, rfl, rfl, rfl⟩
  | msgpush nbytes data => obtain ⟨-, -, -, rfl, -⟩ := h; exact ⟨rfl, rfl, rfl, rfl, rfl⟩
  | encrypt => obtain ⟨-, -, -, rfl, -⟩ := h; exact ⟨rfl, rfl, rfl, rfl, rfl⟩
  | decrypt => obtain ⟨-, -, -, -, rfl, -⟩ := h; exact ⟨rfl, rfl, rfl, rfl, rfl⟩
  | outrd blk => obtain ⟨-, -, rfl, -⟩ := h; exact ⟨rfl, rfl, rfl, rfl, rfl⟩

/-- The result after an OK response: none, the old one, an ENCRYPT's, or a verified DECRYPT's (60_exceptions R222). -/
theorem OkCase.obuf_cases {i : Instr} {s u : State} {w : Block} (h : OkCase i s u w) :
    u.obuf = [] ∨ u.obuf = s.obuf ∨ s.phase = .collect ∧
      (i = .encrypt ∧ u.obuf = encryptOutput Config.chip s ∨
        i = .decrypt ∧ u.obuf = candidate Config.chip s ∧
          sivOf Config.chip s u.obuf = packBytes 128 (s.ibuf.take 16)) := by
  cases i with
  | zeroize => obtain ⟨rfl, -⟩ := h; exact .inl rfl
  | begin => obtain ⟨-, rfl, -⟩ := h; exact .inl rfl
  | encrypt => obtain ⟨hp, -, -, rfl, -⟩ := h; exact .inr (.inr ⟨hp, .inl ⟨rfl, rfl⟩⟩)
  | decrypt =>
    obtain ⟨hp, -, -, verified, rfl, -⟩ := h
    rw [ctEq_iff, envelopeSiv_eq] at verified
    exact .inr (.inr ⟨hp, .inr ⟨rfl, rfl, verified⟩⟩)
  | nop => obtain ⟨rfl, -⟩ := h; exact .inr (.inl rfl)
  | statrd => obtain ⟨rfl, -⟩ := h; exact .inr (.inl rfl)
  | keywr idx data => obtain ⟨-, rfl, -⟩ := h; exact .inr (.inl rfl)
  | keyinit klen => obtain ⟨-, -, -, rfl, -⟩ := h; exact .inr (.inl rfl)
  | adpush nbytes last data => obtain ⟨-, -, rfl, -⟩ := h; cases last <;> exact .inr (.inl rfl)
  | msgpush nbytes data => obtain ⟨-, -, -, rfl, -⟩ := h; exact .inr (.inl rfl)
  | outrd blk => obtain ⟨-, -, rfl, -⟩ := h; exact .inr (.inl rfl)

/-! ## The four kinds of a step -/

/-- How a step leads from `s` to `t`: no event, the reset event, a record answered OK, a record that fails. -/
inductive StepCase (s : State) : State → Prop
  | idle (hin : s.inbox = []) : StepCase s s
  | reset {rest : List HostEvent} (hin : s.inbox = .reset :: rest) : StepCase s (s.withInbox rest).dropInstance
  | answered {c : CommandRecord} {rest : List HostEvent} {i : Instr} {u : State} {w : Block}
      (hin : s.inbox = .command c :: rest) (hd : decodeRecord c = .ok i) (hok : OkCase i (s.withInbox rest) u w) :
      StepCase s (u.emit .ok w)
  | failed {c : CommandRecord} {rest : List HostEvent} {code : RespCode} (hin : s.inbox = .command c :: rest)
      (hc : code ≠ .ok) : StepCase s (((s.withInbox rest).abort code).emit code 0)

theorem stepCase_of_step {s t : State} (h : step s = .next t) : StepCase s t := by
  cases hin : s.inbox with
  | nil =>
    rw [Claims.stepWithoutEventChangesNothing s hin] at h
    cases h
    exact .idle hin
  | cons e rest =>
    cases e with
    | reset =>
      rw [step_reset hin] at h
      cases h
      exact .reset hin
    | command c =>
      rcases step_command_cases hin with ⟨i, u, w, hd, hok, e⟩ | ⟨code, hc, e⟩ <;> rw [e] at h <;> cases h
      · exact .answered hin hd hok
      · exact .failed hin hc

end Sys2Proof.Machine

namespace Sys2Proof.Claims

open Sys2Proof.Machine Sys2Proof.Safety

/-! ## The first failing check (60_exceptions R211) -/

/-- The checks of `exec` stand in the order of `firstFailure`. -/
theorem exec_responds_firstFailure (i : Instr) (s : State) : Responds (firstFailure i s) (exec i s) := by
  cases i with
  | nop => exact ⟨_, _, exec_ok ⟨rfl, rfl⟩⟩
  | zeroize => exact ⟨_, _, exec_ok ⟨rfl, rfl⟩⟩
  | statrd => exact ⟨_, _, exec_ok ⟨rfl, rfl⟩⟩
  | keywr idx data => exact requirePhase_responds (by simp [phaseTable]) (respond_responds _ _)
  | keyinit klen =>
    refine requirePhase_responds (by simp [phaseTable]) ?_
    simp only [ite_or]
    exact raiseIf_responds (by simp [supportedKlen, Fin.ext_iff, and_assoc]) <|
      raiseIf_responds (by simp [keyAbsent]) (respond_responds _ _)
  | begin => exact requirePhase_responds (by simp [phaseTable]) (respond_responds _ _)
  | adpush nbytes last data =>
    refine requirePhase_responds (by simp [phaseTable]) <| raiseIf_responds (by simp [and_assoc]) ?_
    cases last <;> exact respond_responds _ _
  | msgpush nbytes data =>
    exact requirePhase_responds (by simp [phaseTable]) <| raiseIf_responds (by simp) <|
      raiseIf_responds (by simp) (respond_responds _ _)
  | encrypt =>
    exact requirePhase_responds (by simp [phaseTable]) <| raiseIf_responds (by simp) <|
      raiseIf_responds (by simp) (respond_responds _ _)
  | decrypt =>
    refine requirePhase_responds (by simp [phaseTable]) <| raiseIf_responds (by simp) <|
      raiseIf_responds (by simp) <| raiseIf_responds ?_ (respond_responds _ _)
    rw [tagMismatch, ← envelopeSiv_eq, Ne, ← ctEq_iff, Bool.not_eq_true, Bool.not_eq_true']
  | outrd blk =>
    exact requirePhase_responds (by simp [phaseTable]) <| raiseIf_responds (by simp) (respond_responds _ _)

/-- A command is in its OK case and none of its checks fails, or it fails with the code of the first that does. -/
theorem exec_next_firstFailure {i : Instr} {s t : State} (h : exec i s = .next t) :
    (firstFailure i s = .ok ∧ ∃ u w, t = u.emit .ok w ∧ OkCase i s u w) ∨
      (firstFailure i s ≠ .ok ∧ t = (s.abort (firstFailure i s)).emit (firstFailure i s) 0) := by
  obtain ⟨v, x, e⟩ := exec_responds_firstFailure i s
  obtain rfl : t = v.emit (firstFailure i s) x := Host.Outcome.next.inj (h.symm.trans e)
  rcases exec_next_cases h with ⟨u, w, ht, hok⟩ | ⟨code, hc, ht⟩
  · have same := code_of_last (congrArg State.rsps ht)
    exact .inl ⟨same, u, w, ht, hok⟩
  · have same := code_of_last (congrArg State.rsps ht)
    rw [← same] at hc ht
    exact .inr ⟨hc, ht⟩

/-- A record is answered in the OK case of its command and no check fails, or it fails with the code reported. -/
theorem step_reports {s : State} {c : CommandRecord} {rest : List HostEvent} (hin : s.inbox = .command c :: rest) :
    (reportedCode c s = .ok ∧ ∃ i u w, decodeRecord c = .ok i ∧ OkCase i (s.withInbox rest) u w ∧
        step s = .next (u.emit .ok w)) ∨
      (reportedCode c s ≠ .ok ∧
        step s = .next (((s.withInbox rest).abort (reportedCode c s)).emit (reportedCode c s) 0)) := by
  rw [step_command hin]
  cases hd : decodeRecord c with
  | error e =>
    have hr : reportedCode c s = .illegal := by simp only [reportedCode, hd]
    rw [hr]
    exact .inr ⟨by decide, rfl⟩
  | ok i =>
    have hr : reportedCode c s = firstFailure i (s.withInbox rest) := by simp only [reportedCode, hd]; rfl
    rw [hr]
    obtain ⟨v, x, e⟩ := exec_responds_firstFailure i (s.withInbox rest)
    rcases exec_next_firstFailure e with ⟨hf, u, w, ht, hok⟩ | ⟨hf, ht⟩ <;> rw [ht] at e
    · exact .inl ⟨hf, i, u, w, rfl, hok, e⟩
    · exact .inr ⟨hf, e⟩

end Sys2Proof.Claims

namespace Sys2Proof.Safety

open Sys2Proof.Machine

variable {s t : State}

/-! ## What the host sees of each update (60_exceptions R221) -/

theorem SameView.emit (h : SameView s t) (rc : RespCode) (rdata : Block) :
    SameView (s.emit rc rdata) (t.emit rc rdata) :=
  { h with rsps := by rw [State.emit_rsps, State.emit_rsps, h.rsps] }

theorem SameView.withInbox (h : SameView s t) (events : List HostEvent) :
    SameView (s.withInbox events) (t.withInbox events) := { h with inbox := rfl }

theorem SameView.dropInstance (h : SameView s t) : SameView s.dropInstance t.dropInstance :=
  ⟨rfl, rfl, rfl, rfl, rfl, rfl, rfl, rfl, h.inbox, h.rsps⟩

theorem SameView.abort (h : SameView s t) (code : RespCode) : SameView (s.abort code) (t.abort code) :=
  { h with
    phase := by rw [State.abort_phase, State.abort_phase, h.ksel]
    kwValid := rfl, adOpen := rfl, msgClosed := rfl, ilen := rfl, obuf := rfl, err := rfl }

theorem SameView.writeKeyWord (h : SameView s t) (idx : Fin 4) {data data' : Block} :
    SameView (s.writeKeyWord idx data) (t.writeKeyWord idx data') :=
  { h with kwValid := congrArg (· ||| 1#4 <<< idx.val) h.kwValid }

theorem SameView.installKey (h : SameView s t) {sel : KSel} {mac mac' ctr ctr' : ByteString}
    {subs subs' : Block × Block} : SameView (s.installKey sel mac ctr subs) (t.installKey sel mac' ctr' subs') :=
  { h with phase := rfl, ksel := rfl, kwValid := rfl, err := rfl }

theorem SameView.openTransaction (h : SameView s t) {d d' : Block} :
    SameView (s.openTransaction d) (t.openTransaction d') :=
  { h with phase := rfl, adOpen := rfl, msgClosed := rfl, ilen := rfl, obuf := rfl, err := rfl }

theorem SameView.absorbBeat (h : SameView s t) {x x' : Block} : SameView (s.absorbBeat x) (t.absorbBeat x') :=
  { h with adOpen := rfl }

theorem SameView.closeComponent (h : SameView s t) {d d' : Block} :
    SameView (s.closeComponent d) (t.closeComponent d') := { h with adOpen := rfl }

/-- Of the bytes appended, the host knows the number. -/
theorem SameView.appendMessage (h : SameView s t) {v v' : ByteString} (hv : v.length = v'.length) (part : Bool) :
    SameView (s.appendMessage v part) (t.appendMessage v' part) :=
  { h with
    msgClosed := congrArg (· || part) h.msgClosed
    ilen := by
      have grown : (s.ibuf ++ v).length = (t.ibuf ++ v').length := by
        rw [List.length_append, List.length_append, hv]
        exact congrArg (· + _) h.ilen
      simpa using grown }

theorem SameView.finish (h : SameView s t) (out : ByteString) : SameView (s.finish out) (t.finish out) :=
  { h with phase := rfl, msgClosed := rfl, ilen := rfl, obuf := rfl }

theorem SameView.statusWord_eq (h : SameView s t) : statusWord s = statusWord t := by
  simp only [statusWord, keyValid, State.olen, h.phase, h.ksel, h.kwValid, h.adOpen, h.msgClosed, h.ilen, h.obuf,
    h.err]

@[simp] theorem statusWord_emit (s : State) (rc : RespCode) (rdata : Block) :
    statusWord (s.emit rc rdata) = statusWord s := by simp [statusWord, keyValid]

/-- A result shows in STATUS by its length only (10_state R33). -/
theorem SameView.statusWord_finish (h : SameView s t) {out out' : ByteString} (hl : out.length = out'.length) :
    statusWord (s.finish out) = statusWord (t.finish out') := by
  have lengths : statusWord (s.finish out) = statusWord (s.finish out') := by simp [statusWord, keyValid, hl]
  exact lengths.trans (h.finish out').statusWord_eq

/-- A command other than ENCRYPT and DECRYPT that responds OK in two states the host cannot tell apart leaves two such
states, with the same read data. -/
theorem SameView.of_okCase {i : Instr} {u v : State} {w x : Block} (h : SameView s t) (he : i ≠ .encrypt)
    (hd : i ≠ .decrypt) (hs : OkCase i s u w) (ht : OkCase i t v x) : SameView u v ∧ w = x := by
  cases i with
  | encrypt => exact absurd rfl he
  | decrypt => exact absurd rfl hd
  | nop => obtain ⟨rfl, rfl⟩ := hs; obtain ⟨rfl, rfl⟩ := ht; exact ⟨h, rfl⟩
  | zeroize => obtain ⟨rfl, rfl⟩ := hs; obtain ⟨rfl, rfl⟩ := ht; exact ⟨h.dropInstance, rfl⟩
  | statrd => obtain ⟨rfl, rfl⟩ := hs; obtain ⟨rfl, rfl⟩ := ht; exact ⟨h, h.statusWord_eq⟩
  | keywr idx data =>
    obtain ⟨-, rfl, rfl⟩ := hs
    obtain ⟨-, rfl, rfl⟩ := ht
    exact ⟨h.writeKeyWord idx, rfl⟩
  | keyinit klen =>
    obtain ⟨-, -, -, rfl, rfl⟩ := hs
    obtain ⟨-, -, -, rfl, rfl⟩ := ht
    exact ⟨h.installKey, rfl⟩
  | begin =>
    obtain ⟨-, rfl, rfl⟩ := hs
    obtain ⟨-, rfl, rfl⟩ := ht
    exact ⟨h.openTransaction, rfl⟩
  | adpush nbytes last data =>
    obtain ⟨-, -, rfl, rfl⟩ := hs
    obtain ⟨-, -, rfl, rfl⟩ := ht
    cases last with
    | false => exact ⟨h.absorbBeat, rfl⟩
    | true => exact ⟨h.closeComponent, rfl⟩
  | msgpush nbytes data =>
    obtain ⟨-, -, -, rfl, rfl⟩ := hs
    obtain ⟨-, -, -, rfl, rfl⟩ := ht
    exact ⟨h.appendMessage rfl _, rfl⟩
  | outrd blk =>
    obtain ⟨-, -, rfl, rfl⟩ := hs
    obtain ⟨-, -, rfl, rfl⟩ := ht
    exact ⟨h, by rw [h.obuf]⟩

end Sys2Proof.Safety

namespace Sys2Proof.Claims

open Sys2Proof.Machine Sys2Proof.Safety

/-! ## The code of a record and its step, as the host sees them (60_exceptions R221) -/

/-- No check but DECRYPT's comparison reads a secret. -/
theorem firstFailure_eq_of_sameView {i : Instr} {s t : State} (h : SameView s t) (hi : i ≠ .decrypt) :
    firstFailure i s = firstFailure i t := by
  cases i with
  | decrypt => exact absurd rfl hi
  | keyinit klen => simp only [firstFailure, wordMissing, h.phase, h.kwValid]
  | _ => simp only [firstFailure, h.phase, h.adOpen, h.msgClosed, h.ilen, State.olen, h.obuf]

theorem reportedCode_eq_of_sameView {c : CommandRecord} {s t : State} (h : SameView s t)
    (hd : decodeRecord c ≠ .ok .decrypt) : reportedCode c s = reportedCode c t := by
  unfold reportedCode
  cases hi : decodeRecord c with
  | error e => rfl
  | ok i => exact firstFailure_eq_of_sameView h fun e => hd (e ▸ hi)

/-- A record other than ENCRYPT and DECRYPT is answered OK in both states or fails with one code in both. -/
theorem sameView_step_command {c : CommandRecord} {rest : List HostEvent} {s s' t t' : State} (h : SameView s s')
    (hin : s.inbox = .command c :: rest) (he : decodeRecord c ≠ .ok .encrypt) (hd : decodeRecord c ≠ .ok .decrypt)
    (ht : step s = .next t) (ht' : step s' = .next t') : SameView t t' := by
  have same := reportedCode_eq_of_sameView h hd
  have taken := h.withInbox rest
  rcases step_reports hin with ⟨hr, i, u, w, hi, hok, e⟩ | ⟨hr, e⟩ <;>
    rcases step_reports (h.inbox ▸ hin) with ⟨hr', i', u', w', hi', hok', e'⟩ | ⟨hr', e'⟩
  · obtain rfl : i = i' := Except.ok.inj (hi.symm.trans hi')
    obtain ⟨view, rfl⟩ := taken.of_okCase (fun e => he (e ▸ hi)) (fun e => hd (e ▸ hi)) hok hok'
    cases e.symm.trans ht
    cases e'.symm.trans ht'
    exact view.emit .ok w
  · exact absurd (same ▸ hr) hr'
  · exact absurd (same ▸ hr') hr
  · cases e.symm.trans ht
    cases e'.symm.trans ht'
    rw [← same]
    exact (taken.abort _).emit _ 0

end Sys2Proof.Claims

/-! PROOFS. The statements about 60_exceptions. -/

namespace Sys2Proof.Claims

open Sys2Proof.Machine Sys2Proof.Safety

/-- Settles O16: the checks of each command run in the order of the rule, and the code of the response tells whether the
command was in its OK case. -/
theorem firstFailingCheckIsReported : Obligations.FirstFailingCheckIsReported := by
  intro s c rest hin
  rcases step_reports hin with ⟨hr, i, u, w, -, hok, e⟩ | ⟨-, e⟩
  · rw [hr]
    obtain ⟨hrsps, hinbox⟩ := hok.frame
    exact ⟨_, w, e, ⟨congrArg (· ++ _) hrsps, hinbox⟩, fun bad => absurd rfl bad⟩
  · have aborted := aborted_fail (s.withInbox rest) (reportedCode c s)
    exact ⟨_, 0, e, aborted.answered, fun _ => aborted⟩

/-- Settles O18: both states are aborts with this code, and the abort keeps nothing but `ksel` and the keys. -/
theorem failureStateDependsOnKeysAlone : Obligations.FailureStateDependsOnKeysAlone := by
  intro i i' s s' t t' code hc ⟨ksel, macKey, ctrKey, k1, k2⟩ ht answered ht' answered'
  obtain rfl := exec_failed ht hc answered
  obtain rfl := exec_failed ht' hc answered'
  simp only [State.emit, State.abort, ksel, macKey, ctrKey, k1, k2]

/-- Settles O19: the abort of a keyed core is in READY, where BEGIN is in its OK case. -/
theorem afterAFailureBeginIsAccepted : Obligations.AfterAFailureBeginIsAccepted := by
  intro i s t code keyed hc ht answered
  obtain rfl := exec_failed ht hc answered
  have ready : ((s.abort code).emit code 0).phase = .ready := if_neg keyed
  exact ⟨ready, _, exec_ok ⟨.inl ready, rfl, rfl⟩, ⟨rfl, rfl⟩, rfl, rfl⟩

/-- Settles O32: the comparison fails, and `fail` is the abort. -/
theorem decryptMismatchFailsWithEAuth : Obligations.DecryptMismatchFailsWithEAuth := by
  rintro s siv pt hp closed long rfl hpt mismatch
  have differs : sivOf Config.chip s (candidate Config.chip s) ≠ envelopeSiv s.ibuf := by
    rw [candidate_eq, ← hpt, envelopeSiv_eq]
    exact mismatch
  exact ⟨_, exec_decrypt_mismatch hp closed long differs, aborted_fail s .auth⟩

/-- Settles O48: reset and failure empty `obuf`, and an OK response leaves what its command writes there. -/
theorem outputComesOnlyFromEncryptOrVerifiedDecrypt : Obligations.OutputComesOnlyFromEncryptOrVerifiedDecrypt := by
  intro s t h
  cases stepCase_of_step h with
  | idle => exact .inr (.inl rfl)
  | reset => exact .inl rfl
  | failed => exact .inl rfl
  | answered hin hd hok =>
    rcases hok.obuf_cases with empty | kept | ⟨hp, ⟨rfl, out⟩ | ⟨rfl, out, verified⟩⟩
    · exact .inl empty
    · exact .inr (.inl kept)
    · exact .inr (.inr ⟨_, _, hin, hp, .inl ⟨hd, out⟩⟩)
    · exact .inr (.inr ⟨_, _, hin, hp, .inr ⟨hd, out, verified⟩⟩)

/-- Settles O49: the two states take the same event, report the same code, and either way get the same update of what
the host can see. -/
theorem hostCannotSeeTheSecrets : Obligations.HostCannotSeeTheSecrets := by
  intro s s' t t' h ht ht' harmless
  cases hin : s.inbox with
  | nil =>
    rw [stepWithoutEventChangesNothing s hin] at ht
    rw [stepWithoutEventChangesNothing s' (h.inbox ▸ hin)] at ht'
    cases ht; cases ht'
    exact h
  | cons e rest =>
    cases e with
    | reset =>
      rw [step_reset hin] at ht
      rw [step_reset (h.inbox ▸ hin)] at ht'
      cases ht; cases ht'
      exact (h.withInbox rest).dropInstance
    | command c =>
      obtain ⟨he, hd⟩ := harmless c rest hin
      exact sameView_step_command h hin he hd ht ht'

/-- Settles O50: an envelope shows in STATUS by its length, which is 16 more than the plaintext's; DECRYPT's code is
that of its first failing check. -/
theorem cryptographicCommandsRespondWithCodesOnly : Obligations.CryptographicCommandsRespondWithCodesOnly := by
  refine ⟨fun s s' t t' h ht ht' => ?_, fun s t ht => ?_⟩
  · have same := firstFailure_eq_of_sameView (i := .encrypt) h (by decide)
    rcases exec_next_firstFailure ht with ⟨hf, _, _, rfl, -, -, -, rfl, rfl⟩ | ⟨hf, rfl⟩ <;>
      rcases exec_next_firstFailure ht' with ⟨hf', _, _, rfl, -, -, -, rfl, rfl⟩ | ⟨hf', rfl⟩
    · have length : (encryptOutput Config.chip s).length = (encryptOutput Config.chip s').length := by
        rw [encryptOutput_length, encryptOutput_length, h.ilen]
      simp only [State.emit_rsps, State.finish_rsps, h.rsps, statusWord_emit, h.statusWord_finish length, and_self]
    · exact absurd (same ▸ hf) hf'
    · exact absurd (same ▸ hf') hf
    · rw [← same]
      have view := (h.abort (firstFailure .encrypt s)).emit (firstFailure .encrypt s) 0
      exact ⟨view.rsps, view.statusWord_eq⟩
  · have codes : firstFailure .decrypt s = .ok ∨ firstFailure .decrypt s = .proto ∨
        firstFailure .decrypt s = .envelope ∨ firstFailure .decrypt s = .auth := by
      simp only [firstFailure]
      split_ifs <;> simp
    rcases exec_next_firstFailure ht with ⟨-, _, _, rfl, -, -, -, -, rfl, rfl⟩ | ⟨-, rfl⟩
    · exact ⟨.ok, rfl, .inl rfl⟩
    · exact ⟨_, rfl, codes⟩

/-- Settles O12: the step fails with E_ILLEGAL, and `fail` is the abort. -/
theorem illegalCommandFailsWithEIllegal : Obligations.IllegalCommandFailsWithEIllegal := by
  intro s c rest e hin hd
  refine ⟨_, ?_, aborted_fail (s.withInbox rest) .illegal⟩
  rw [step_command hin, hd, fail_eq]

/-- Settles O15: a record that is not answered OK has failed with the code of its response. -/
theorem failIsTheFailClosedAbort : Obligations.FailIsTheFailClosedAbort := by
  refine ⟨fun code s => ⟨_, rfl, aborted_fail s code⟩, fun s c rest hin => ?_⟩
  rcases step_command_cases hin with ⟨i, u, w, -, hok, e⟩ | ⟨code, -, e⟩
  · exact ⟨_, ⟨.ok, w⟩, e, congrArg (· ++ _) hok.frame.1, fun bad => absurd rfl bad⟩
  · exact ⟨_, ⟨code, 0⟩, e, rfl, fun _ => aborted_fail (s.withInbox rest) code⟩

end Sys2Proof.Claims

/-! PROOFS. The KEY sequence (30_encoding R93): the key buffer word by word, and the halves in the key registers; and
the reset values (70_reset_and_hazards R230). -/

namespace Sys2Proof.Machine

/-- Up to the word KEYWR writes, the staged key is the bytes before it and the word (45_commands_key R162). -/
theorem stagedKey_writeKeyWord (s : State) (idx : Fin 4) (data : Block) :
    stagedKey (s.writeKeyWord idx data) (16 * idx.val + 16) = stagedKey s (16 * idx.val) ++ topBytes 16 data := by
  simp only [stagedKey, slice, List.drop_zero, stagedBytes, State.writeKeyWord_kw]
  fin_cases idx <;> simp [List.take_append, topBytes_take]

/-- A half reads back from its key register (10_state R24). -/
theorem topBytes_keyRegister {sel : KSel} {half : ByteString} (h : half.length = sel.ksize) :
    topBytes sel.ksize (packBytes 256 half) = half := by
  have fits := sel.ksize_le
  rw [← h, topBytes_packBytes_self 256 half (by omega)]

/-- A supported length selects its half as `ksize` (45_commands_key R163). -/
theorem ksize_ofHalf {klen : Nat} (h : supportedKlen klen = true) : (KSel.ofHalf (klen / 2)).ksize = klen / 2 := by
  rcases (supportedKlen_iff klen).1 h with rfl | rfl | rfl <;> rfl

/-- The halves of a key that is staged whole (20_memory R57). -/
theorem halves_of_stagedKey {s : State} {key : ByteString} (h : stagedKey s key.length = key) :
    macHalf s key.length = key.take (key.length / 2) ∧ ctrHalf s key.length = key.drop (key.length / 2) := by
  simp [macHalf, ctrHalf, h, slice]

end Sys2Proof.Machine

namespace Sys2Proof.Claims

open Sys2Proof.Machine Sys2Proof.Safety

/-- The first `k` words of a key, written in UNKEYED. -/
theorem quietRun_keyWords {s : State} {key : ByteString} (hp : s.phase = .unkeyed) {k : Nat} (hk : k ≤ 4)
    (inside : 16 * k ≤ key.length) :
    ∃ u, QuietRun s ((List.range k).map fun j => .keywr (Fin.ofNat 4 j) (blockAt key j)) u ∧ u.phase = .unkeyed ∧
      (∀ j, j < k → u.kwValid.getLsbD j = true) ∧ stagedKey u (16 * k) = key.take (16 * k) := by
  induction k with
  | zero => exact ⟨s, .nil s, hp, fun _ h => absurd h (Nat.not_lt_zero _), rfl⟩
  | succ k ih =>
    obtain ⟨u, run, unkeyed, written, staged⟩ := ih (by omega) (by omega)
    have index : (Fin.ofNat 4 k).val = k := Nat.mod_eq_of_lt (by omega)
    refine ⟨u.writeKeyWord (Fin.ofNat 4 k) (blockAt key k), ?_, unkeyed, fun j hj => ?_, ?_⟩
    · rw [List.range_succ, List.map_append]
      exact run.append (.single rfl ⟨unkeyed, rfl, rfl⟩)
    · have mark := kwValid_mark_getLsbD u.kwValid (Fin.ofNat 4 k) ⟨j, by omega⟩
      rw [State.writeKeyWord_kwValid, mark]
      by_cases h : j = k
      · rw [decide_eq_true (Fin.ext (h.trans index.symm)), Bool.true_or]
      · rw [written j (by omega), Bool.or_true]
    · have word := stagedKey_writeKeyWord u (Fin.ofNat 4 k) (blockAt key k)
      rw [index, staged, blockAt_full (by omega), take_append_slice key (by omega)] at word
      exact word

/-- The KEY sequence of a supported length is answered OK throughout, and installs the two halves. -/
theorem quietRun_keySeq {s : State} {key : ByteString} (fits : key.length ≤ 64) (hp : s.phase = .unkeyed)
    (supported : supportedKlen key.length = true) :
    ∃ u : State, QuietRun s (keySeq key fits) (u.installKey (KSel.ofHalf (key.length / 2)) (key.take (key.length / 2))
      (key.drop (key.length / 2)) (subkeys (Config.chip.E (key.take (key.length / 2))))) := by
  have whole : 16 * beatCount key.length = key.length ∧ beatCount key.length = key.length / 16 := by
    rcases (supportedKlen_iff _).1 supported with h | h | h <;> simp [h, beatCount]
  obtain ⟨u, run, unkeyed, written, staged⟩ := quietRun_keyWords (key := key) (k := beatCount key.length) hp
    (by omega) (by omega)
  rw [whole.1, List.take_length] at staged
  rw [whole.2] at written
  obtain ⟨mac, ctr⟩ := halves_of_stagedKey staged
  refine ⟨u, run.append (.single rfl ⟨unkeyed, supported, (keyAbsent_eq_false_iff u _).2 written, ?_, rfl⟩)⟩
  rw [mac, ctr]

/-- The reset value of every element, after a reset event in any state (70_reset_and_hazards R230). -/
theorem resetValues_dropInstance (s : State) : ResetValues s.dropInstance where
  sequencing := ⟨rfl, rfl⟩
  staging := ⟨fun j => by fin_cases j <;> rfl, rfl⟩
  keys := ⟨rfl, rfl, rfl, rfl⟩
  chain := ⟨rfl, rfl, rfl, rfl⟩
  buffers := ⟨rfl, rfl, rfl, rfl⟩
  err := rfl
  status := by
    show statusWord State.reset = 0
    decide

end Sys2Proof.Claims

/-! PROOFS. The statements about 70_reset_and_hazards. -/

namespace Sys2Proof.Claims

open Sys2Proof.Machine Sys2Proof.Safety

/-- Settles O47: a failure keeps the installed key, and so does every OK response but those of ZEROIZE and KEYINIT. -/
theorem installedKeyChangesOnlyByKeyCommands : Obligations.InstalledKeyChangesOnlyByKeyCommands := by
  intro s t h
  cases stepCase_of_step h with
  | idle => exact .inl ⟨rfl, rfl, rfl, rfl, rfl⟩
  | reset hin => exact .inr (.inl ⟨_, hin⟩)
  | failed => exact .inl ⟨rfl, rfl, rfl, rfl, rfl⟩
  | @answered c rest i u w hin hd hok =>
    by_cases hz : i = .zeroize
    · exact .inr (.inr ⟨c, rest, hin, .inl (hz ▸ hd)⟩)
    by_cases hk : ∃ klen, i = .keyinit klen
    · obtain ⟨klen, rfl⟩ := hk
      obtain ⟨hp, -, -, rfl, rfl⟩ := hok
      exact .inr (.inr ⟨c, rest, hin, .inr ⟨klen, hd, hp, rfl⟩⟩)
    · exact .inl (hok.keysKept hz (not_exists.1 hk))

/-- Settles O51: the words of the key are staged one by one, and KEYINIT is then in its OK case. -/
theorem keySequenceInstallsTheKey : Obligations.KeySequenceInstallsTheKey := by
  intro s key fits hi hp lengths
  have supported := (supportedKlen_iff key.length).2 lengths
  have size := ksize_ofHalf supported
  obtain ⟨u, quiet⟩ := quietRun_keySeq fits hp supported
  have mac := topBytes_keyRegister (half := key.take (key.length / 2))
    (show _ = (KSel.ofHalf (key.length / 2)).ksize by rw [size, List.length_take]; omega)
  have ctr := topBytes_keyRegister (half := key.drop (key.length / 2))
    (show _ = (KSel.ofHalf (key.length / 2)).ksize by rw [size, List.length_drop]; omega)
  exact ⟨_, quiet.runs, by simp [oks], rfl, size, mac, ctr, (hi.withInbox _).run quiet.runs⟩

/-- Settles O1: the reset event and the reset state have the same elements. -/
theorem resetClearsEveryElement : Obligations.ResetClearsEveryElement :=
  ⟨resetValues_dropInstance State.reset, fun _ _ hin => ⟨_, step_reset hin, resetValues_dropInstance _⟩⟩

/-- Settles O2: the reset event keeps only the later events and the responses. -/
theorem resetEventGivesTheResetState : Obligations.ResetEventGivesTheResetState := fun _ _ hin => step_reset hin

end Sys2Proof.Claims
